-- ==== Sys2Proof/Word.lean ====
section
/-! DEFINITION. The value types of the block (00_scope.md R5, R8): every value is an unsigned integer of 4, 8, 12
or 16 bits, and nothing is ever sign-extended. -/

namespace Sys2Proof

/-- `u8`: a register, a memory byte, an immediate (R5, R8). -/
abbrev Byte := BitVec 8

/-- `u16`: `I`, `pc`, a return address, an instruction word (R5, R8). -/
abbrev Word := BitVec 16

/-- A 4-bit operand field: a register index `x` or `y`, or the row count `n` (30_encoding.md R71). -/
abbrev Nibble := BitVec 4

/-- The 12-bit address field `nnn` (R71). -/
abbrev Addr12 := BitVec 12

/-- `MEM_SIZE`: the addresses are 0x000 to 0xFFF (R5, 20_memory.md R50). -/
abbrev memSize : Nat := 0x1000

/-- One past the font range 0x000..0x04F: 16 glyphs of 5 bytes (R5, R51). -/
abbrev fontEnd : Nat := 0x50

/-- `PROGRAM_START`: where the ROM is loaded and where pc starts (R5, R51). -/
abbrev programStart : Nat := 0x200

/-- `STACK_DEPTH`: the most return addresses the call stack holds (R5, R28). -/
abbrev stackDepth : Nat := 16

end Sys2Proof
end

