-- ==== Sys2Proof/Syntax.lean ====
section
/-! DEFINITION. The 35 instructions of 30_encoding.md R75 in the order of spec/opcode_table.json, one constructor
per row, under the names of the structured instruction (R80); the `invert` and `fn` values of R80 are part of the
constructor's name. -/

namespace Sys2Proof

/-- The structured instruction (R80): `nnn` is 12 bits, `x`, `y`, `n` are 4 bits, `kk` is 8 bits. -/
inductive Instr where
  /-- CLS, 00E0 (R175) -/
  | clearScreen
  /-- RET, 00EE (R120) -/
  | ret
  /-- SYS nnn, 0nnn with nnn neither 0x0E0 nor 0x0EE (R121) -/
  | sys (nnn : Addr12)
  /-- JP nnn, 1nnn (R122) -/
  | jump (nnn : Addr12)
  /-- CALL nnn, 2nnn (R123) -/
  | call (nnn : Addr12)
  /-- SE Vx, kk, 3xkk (R124) -/
  | skipEqImm (x : Nibble) (kk : Byte)
  /-- SNE Vx, kk, 4xkk (R125) -/
  | skipNeImm (x : Nibble) (kk : Byte)
  /-- SE Vx, Vy, 5xy0 (R126) -/
  | skipEqReg (x y : Nibble)
  /-- LD Vx, kk, 6xkk (R141) -/
  | putImm (x : Nibble) (kk : Byte)
  /-- ADD Vx, kk, 7xkk (R142) -/
  | addImm (x : Nibble) (kk : Byte)
  /-- LD Vx, Vy, 8xy0 (R143) -/
  | applyId (x y : Nibble)
  /-- OR Vx, Vy, 8xy1 (R144) -/
  | applyOr (x y : Nibble)
  /-- AND Vx, Vy, 8xy2 (R145) -/
  | applyAnd (x y : Nibble)
  /-- XOR Vx, Vy, 8xy3 (R146) -/
  | applyXor (x y : Nibble)
  /-- ADD Vx, Vy, 8xy4 (R147) -/
  | applyAdd (x y : Nibble)
  /-- SUB Vx, Vy, 8xy5 (R148) -/
  | applySubtract (x y : Nibble)
  /-- SHR Vx, Vy, 8xy6 (R149) -/
  | applyShiftRight (x y : Nibble)
  /-- SUBN Vx, Vy, 8xy7 (R150) -/
  | applySubtractInv (x y : Nibble)
  /-- SHL Vx, Vy, 8xyE (R151) -/
  | applyShiftLeft (x y : Nibble)
  /-- SNE Vx, Vy, 9xy0 (R127) -/
  | skipNeReg (x y : Nibble)
  /-- LD I, nnn, Annn (R210) -/
  | setIndex (nnn : Addr12)
  /-- JP V0, nnn, Bnnn (R128) -/
  | jumpPlusV0 (nnn : Addr12)
  /-- RND Vx, kk, Cxkk (R152) -/
  | randomize (x : Nibble) (kk : Byte)
  /-- DRW Vx, Vy, n, Dxyn (R176) -/
  | draw (x y n : Nibble)
  /-- SKP Vx, Ex9E (R192) -/
  | skipPressed (x : Nibble)
  /-- SKNP Vx, ExA1 (R193) -/
  | skipNotPressed (x : Nibble)
  /-- LD Vx, DT, Fx07 (R194) -/
  | getDelay (x : Nibble)
  /-- LD Vx, K, Fx0A (R195) -/
  | waitKey (x : Nibble)
  /-- LD DT, Vx, Fx15 (R196) -/
  | setDelay (x : Nibble)
  /-- LD ST, Vx, Fx18 (R197) -/
  | setSound (x : Nibble)
  /-- ADD I, Vx, Fx1E (R211) -/
  | addToIndex (x : Nibble)
  /-- LD F, Vx, Fx29 (R212) -/
  | loadGlyphAddress (x : Nibble)
  /-- LD B, Vx, Fx33 (R213) -/
  | storeBCD (x : Nibble)
  /-- LD [I], Vx, Fx55 (R214) -/
  | storeRegisterBlock (x : Nibble)
  /-- LD Vx, [I], Fx65 (R215) -/
  | loadRegisterBlock (x : Nibble)
deriving DecidableEq, Repr

end Sys2Proof
end

