-- ==== Sys2Proof/WellFormed.lean ====
section
/-! DEFINITION. The instructions a decoder can produce (30_encoding.md R79): every field is as wide as its type says,
and a `Sys` is valid only for an address that is not the word of CLS or RET. -/

namespace Sys2Proof

/-- `Sys(addr)` is valid only for `addr` not in 0x0E0, 0x0EE (R79). -/
def sysAddressValid (nnn : Addr12) : Bool :=
  nnn != 0x0E0#12 && nnn != 0x0EE#12

/-- The valid structured instructions of R79; R21: every register index is valid by its width. -/
def wellFormed : Instr → Bool
  | .sys nnn => sysAddressValid nnn
  | .clearScreen | .ret | .jump _ | .call _ | .skipEqImm _ _ | .skipNeImm _ _ | .skipEqReg _ _
  | .putImm _ _ | .addImm _ _ | .applyId _ _ | .applyOr _ _ | .applyAnd _ _ | .applyXor _ _ | .applyAdd _ _
  | .applySubtract _ _ | .applyShiftRight _ _ | .applySubtractInv _ _ | .applyShiftLeft _ _ | .skipNeReg _ _
  | .setIndex _ | .jumpPlusV0 _ | .randomize _ _ | .draw _ _ _ | .skipPressed _ | .skipNotPressed _
  | .getDelay _ | .waitKey _ | .setDelay _ | .setSound _ | .addToIndex _ | .loadGlyphAddress _ | .storeBCD _
  | .storeRegisterBlock _ | .loadRegisterBlock _ => true

end Sys2Proof
end

