-- ==== Sys2Proof/Decode.lean ====
section
/-! DEFINITION. The instruction codec: operand fields by position (30_encoding.md R71), the decoder (R74, R76), the
opcode table in decode priority order (spec/opcode_table.json), the encoder (R79), and the byte order of an
instruction word (20_memory.md R54). -/

namespace Sys2Proof

/-! ## Fields of a word (R71) -/

/-- `w[15:12]`, the opcode family selector. -/
def highNibble (w : Word) : Nibble := w.extractLsb' 12 4

/-- `x = w[11:8]`. -/
def xField (w : Word) : Nibble := w.extractLsb' 8 4

/-- `y = w[7:4]`. -/
def yField (w : Word) : Nibble := w.extractLsb' 4 4

/-- `n = w[3:0]`. -/
def nField (w : Word) : Nibble := w.extractLsb' 0 4

/-- `kk = w[7:0]`. -/
def kkField (w : Word) : Byte := w.extractLsb' 0 8

/-- `nnn = w[11:0]`. -/
def nnnField (w : Word) : Addr12 := w.extractLsb' 0 12

/-! ## Byte order (R54) -/

/-- The big-endian word of two bytes, the high byte first (R54). -/
def wordOfBytes (hi lo : Byte) : Word := (hi ++ lo : BitVec (8 + 8))

/-- The byte of a word that stands at the lower address (R54, R70). -/
def highByte (w : Word) : Byte := w.extractLsb' 8 8

/-- The byte of a word that stands at the higher address (R54, R70). -/
def lowByte (w : Word) : Byte := w.extractLsb' 0 8

/-! ## Decoding (R74) -/

/-- The result of decoding a word: `Instruction | UnrecognizedInstruction(w)` (R74). -/
inductive Decoded where
  | instruction (i : Instr)
  | unrecognizedInstruction (w : Word)
deriving DecidableEq, Repr

/-- Group 0: the exact words come before `0nnn` (R74); every word of the group decodes (R76). -/
def decodeGroup0 (w : Word) : Decoded :=
  if w = 0x00E0#16 then .instruction .clearScreen
  else if w = 0x00EE#16 then .instruction .ret
  else .instruction (.sys (nnnField w))

/-- Group 8: the low nibble selects the function of `Apply` (R74, R76). -/
def decodeGroup8 (w : Word) : Decoded :=
  match (nField w).toNat with
  | 0x0 => .instruction (.applyId (xField w) (yField w))
  | 0x1 => .instruction (.applyOr (xField w) (yField w))
  | 0x2 => .instruction (.applyAnd (xField w) (yField w))
  | 0x3 => .instruction (.applyXor (xField w) (yField w))
  | 0x4 => .instruction (.applyAdd (xField w) (yField w))
  | 0x5 => .instruction (.applySubtract (xField w) (yField w))
  | 0x6 => .instruction (.applyShiftRight (xField w) (yField w))
  | 0x7 => .instruction (.applySubtractInv (xField w) (yField w))
  | 0xE => .instruction (.applyShiftLeft (xField w) (yField w))
  | _ => .unrecognizedInstruction w

/-- Group E: the low byte selects the key skip (R74, R76). -/
def decodeGroupE (w : Word) : Decoded :=
  match (kkField w).toNat with
  | 0x9E => .instruction (.skipPressed (xField w))
  | 0xA1 => .instruction (.skipNotPressed (xField w))
  | _ => .unrecognizedInstruction w

/-- Group F: the low byte selects the instruction (R74, R76). -/
def decodeGroupF (w : Word) : Decoded :=
  match (kkField w).toNat with
  | 0x07 => .instruction (.getDelay (xField w))
  | 0x0A => .instruction (.waitKey (xField w))
  | 0x15 => .instruction (.setDelay (xField w))
  | 0x18 => .instruction (.setSound (xField w))
  | 0x1E => .instruction (.addToIndex (xField w))
  | 0x29 => .instruction (.loadGlyphAddress (xField w))
  | 0x33 => .instruction (.storeBCD (xField w))
  | 0x55 => .instruction (.storeRegisterBlock (xField w))
  | 0x65 => .instruction (.loadRegisterBlock (xField w))
  | _ => .unrecognizedInstruction w

/-- The decoder of R74, total on every word, strict on the fixed sub-fields (R76). The pairings R74 marks as general
knowledge are PRESUMED (log entry 14). The last arm is reached by no
word: a nibble is at most 0xF. -/
def decode (w : Word) : Decoded :=
  match (highNibble w).toNat with
  | 0x0 => decodeGroup0 w
  | 0x1 => .instruction (.jump (nnnField w))
  | 0x2 => .instruction (.call (nnnField w))
  | 0x3 => .instruction (.skipEqImm (xField w) (kkField w))
  | 0x4 => .instruction (.skipNeImm (xField w) (kkField w))
  | 0x5 =>
    if nField w = 0x0#4 then .instruction (.skipEqReg (xField w) (yField w)) else .unrecognizedInstruction w
  | 0x6 => .instruction (.putImm (xField w) (kkField w))
  | 0x7 => .instruction (.addImm (xField w) (kkField w))
  | 0x8 => decodeGroup8 w
  | 0x9 =>
    if nField w = 0x0#4 then .instruction (.skipNeReg (xField w) (yField w)) else .unrecognizedInstruction w
  | 0xA => .instruction (.setIndex (nnnField w))
  | 0xB => .instruction (.jumpPlusV0 (nnnField w))
  | 0xC => .instruction (.randomize (xField w) (kkField w))
  | 0xD => .instruction (.draw (xField w) (yField w) (nField w))
  | 0xE => decodeGroupE w
  | 0xF => decodeGroupF w
  | _ => .unrecognizedInstruction w

/-- The decoder on a byte stream (R54): the instruction of the first two bytes and the rest, or none where fewer
than two bytes stand there. -/
def decodeBytes : List Byte → Option (Decoded × List Byte)
  | hi :: lo :: rest => some (decode (wordOfBytes hi lo), rest)
  | _ => none

/-! ## The opcode table (spec/opcode_table.json) -/

/-- One row of spec/opcode_table.json: the (match, mask) pair of R74 and the instruction its fields make. -/
structure OpcodeRow where
  pattern : Word
  mask : Word
  build : Word → Instr

/-- `(w & mask) == match` (R74). -/
def rowMatches (w : Word) (row : OpcodeRow) : Bool := (w &&& row.mask) == row.pattern

/-- Rows 00E0 to 7xkk of the table. -/
def opcodeTableLow : List OpcodeRow := [
  ⟨0x00E0, 0xFFFF, fun _ => .clearScreen⟩,
  ⟨0x00EE, 0xFFFF, fun _ => .ret⟩,
  ⟨0x0000, 0xF000, fun w => .sys (nnnField w)⟩,
  ⟨0x1000, 0xF000, fun w => .jump (nnnField w)⟩,
  ⟨0x2000, 0xF000, fun w => .call (nnnField w)⟩,
  ⟨0x3000, 0xF000, fun w => .skipEqImm (xField w) (kkField w)⟩,
  ⟨0x4000, 0xF000, fun w => .skipNeImm (xField w) (kkField w)⟩,
  ⟨0x5000, 0xF00F, fun w => .skipEqReg (xField w) (yField w)⟩,
  ⟨0x6000, 0xF000, fun w => .putImm (xField w) (kkField w)⟩,
  ⟨0x7000, 0xF000, fun w => .addImm (xField w) (kkField w)⟩]

/-- Rows 8xy0 to Dxyn of the table. -/
def opcodeTableMid : List OpcodeRow := [
  ⟨0x8000, 0xF00F, fun w => .applyId (xField w) (yField w)⟩,
  ⟨0x8001, 0xF00F, fun w => .applyOr (xField w) (yField w)⟩,
  ⟨0x8002, 0xF00F, fun w => .applyAnd (xField w) (yField w)⟩,
  ⟨0x8003, 0xF00F, fun w => .applyXor (xField w) (yField w)⟩,
  ⟨0x8004, 0xF00F, fun w => .applyAdd (xField w) (yField w)⟩,
  ⟨0x8005, 0xF00F, fun w => .applySubtract (xField w) (yField w)⟩,
  ⟨0x8006, 0xF00F, fun w => .applyShiftRight (xField w) (yField w)⟩,
  ⟨0x8007, 0xF00F, fun w => .applySubtractInv (xField w) (yField w)⟩,
  ⟨0x800E, 0xF00F, fun w => .applyShiftLeft (xField w) (yField w)⟩,
  ⟨0x9000, 0xF00F, fun w => .skipNeReg (xField w) (yField w)⟩,
  ⟨0xA000, 0xF000, fun w => .setIndex (nnnField w)⟩,
  ⟨0xB000, 0xF000, fun w => .jumpPlusV0 (nnnField w)⟩,
  ⟨0xC000, 0xF000, fun w => .randomize (xField w) (kkField w)⟩,
  ⟨0xD000, 0xF000, fun w => .draw (xField w) (yField w) (nField w)⟩]

/-- Rows Ex9E to Fx65 of the table. -/
def opcodeTableHigh : List OpcodeRow := [
  ⟨0xE09E, 0xF0FF, fun w => .skipPressed (xField w)⟩,
  ⟨0xE0A1, 0xF0FF, fun w => .skipNotPressed (xField w)⟩,
  ⟨0xF007, 0xF0FF, fun w => .getDelay (xField w)⟩,
  ⟨0xF00A, 0xF0FF, fun w => .waitKey (xField w)⟩,
  ⟨0xF015, 0xF0FF, fun w => .setDelay (xField w)⟩,
  ⟨0xF018, 0xF0FF, fun w => .setSound (xField w)⟩,
  ⟨0xF01E, 0xF0FF, fun w => .addToIndex (xField w)⟩,
  ⟨0xF029, 0xF0FF, fun w => .loadGlyphAddress (xField w)⟩,
  ⟨0xF033, 0xF0FF, fun w => .storeBCD (xField w)⟩,
  ⟨0xF055, 0xF0FF, fun w => .storeRegisterBlock (xField w)⟩,
  ⟨0xF065, 0xF0FF, fun w => .loadRegisterBlock (xField w)⟩]

/-- The whole table in priority order (R74). -/
def opcodeTable : List OpcodeRow := opcodeTableLow ++ opcodeTableMid ++ opcodeTableHigh

/-! ## Encoding (R79) -/

/-- Format `nnn` of R72. -/
def formNnn (h : Nibble) (nnn : Addr12) : Word := (h ++ nnn : BitVec (4 + 12))

/-- Format `xkk` of R72; format `x` is the same with a fixed low byte. -/
def formXkk (h x : Nibble) (kk : Byte) : Word := ((h ++ x) ++ kk : BitVec (4 + 4 + 8))

/-- Format `xyn` of R72; format `xy` is the same with a fixed low nibble. -/
def formXyn (h x y n : Nibble) : Word := (((h ++ x) ++ y) ++ n : BitVec (4 + 4 + 4 + 4))

/-- `encode`: each field at its position (R71), the fixed nibbles of R75. -/
def encode : Instr → Word
  | .clearScreen => 0x00E0
  | .ret => 0x00EE
  | .sys nnn => formNnn 0x0 nnn
  | .jump nnn => formNnn 0x1 nnn
  | .call nnn => formNnn 0x2 nnn
  | .skipEqImm x kk => formXkk 0x3 x kk
  | .skipNeImm x kk => formXkk 0x4 x kk
  | .skipEqReg x y => formXyn 0x5 x y 0x0
  | .putImm x kk => formXkk 0x6 x kk
  | .addImm x kk => formXkk 0x7 x kk
  | .applyId x y => formXyn 0x8 x y 0x0
  | .applyOr x y => formXyn 0x8 x y 0x1
  | .applyAnd x y => formXyn 0x8 x y 0x2
  | .applyXor x y => formXyn 0x8 x y 0x3
  | .applyAdd x y => formXyn 0x8 x y 0x4
  | .applySubtract x y => formXyn 0x8 x y 0x5
  | .applyShiftRight x y => formXyn 0x8 x y 0x6
  | .applySubtractInv x y => formXyn 0x8 x y 0x7
  | .applyShiftLeft x y => formXyn 0x8 x y 0xE
  | .skipNeReg x y => formXyn 0x9 x y 0x0
  | .setIndex nnn => formNnn 0xA nnn
  | .jumpPlusV0 nnn => formNnn 0xB nnn
  | .randomize x kk => formXkk 0xC x kk
  | .draw x y n => formXyn 0xD x y n
  | .skipPressed x => formXkk 0xE x 0x9E
  | .skipNotPressed x => formXkk 0xE x 0xA1
  | .getDelay x => formXkk 0xF x 0x07
  | .waitKey x => formXkk 0xF x 0x0A
  | .setDelay x => formXkk 0xF x 0x15
  | .setSound x => formXkk 0xF x 0x18
  | .addToIndex x => formXkk 0xF x 0x1E
  | .loadGlyphAddress x => formXkk 0xF x 0x29
  | .storeBCD x => formXkk 0xF x 0x33
  | .storeRegisterBlock x => formXkk 0xF x 0x55
  | .loadRegisterBlock x => formXkk 0xF x 0x65

/-! ## The word numbered as the opcode table numbers it -/

/-- The bytes of a table word as the hardware stores them: bits 15:8 at the lower address (R54, R70); the bits
above `nbits` are 0. -/
def tableWordBytes (nbits w : Nat) : List Byte :=
  let word : Word := BitVec.ofNat 16 (w % 2 ^ nbits)
  [highByte word, lowByte word]

/-- What the decoder reads from an instruction whose bits are `w` (bit 0 the least significant bit of the word). -/
def decodeTableWord (nbits w : Nat) : Option Instr :=
  match decodeBytes (tableWordBytes nbits w) with
  | some (.instruction i, _) => some i
  | _ => none

end Sys2Proof
end

