-- ==== Sys2Proof/Config.lean ====
section
/-! DEFINITION. What is fixed for a run (the four parameters of 00_scope.md R6) and what is free (the environment
of each cycle, 40_cycle.md R111, and the host's elapsed time, 60_exceptions.md R247). -/

namespace Sys2Proof

/-- The 80 bytes of parameter `FONT`: 16 glyphs of 5 bytes (20_memory.md R51, R52). -/
abbrev Font := Vector Byte 80

/-- Parameter `FONT_WRITE_POLICY` (R6, R53): what a store to 0x000..0x04F does. -/
inductive FontWritePolicy where
  | fault
  | write
deriving DecidableEq, Repr

/-- The parameters of R6, "fixed for a run" (10_state.md R20). -/
structure Config where
  /-- `REGBLOCK_INC_I`: Fx55 and Fx65 add x+1 to I after the copy when true (R6, D9). -/
  regblockIncI : Bool
  /-- `FONT`: the bytes at 0x000..0x04F after construction (R6, R52, D10). -/
  font : Font
  /-- `FONT_WRITE_POLICY` (R6, R53, D11). -/
  fontWritePolicy : FontWritePolicy
  /-- `TIMER_READ_SLACK`: when true, a timer read may also return one tick less (R6, R190, D13). -/
  timerReadSlack : Bool
deriving DecidableEq, Repr

/-- The default of `FONT`: the conventional font table of R52, glyph 0 to glyph F.
PRESUMED (log entry 5): R52 itself marks these bytes as general knowledge. -/
def Config.conventionalFont : Font :=
  #v[0xF0, 0x90, 0x90, 0x90, 0xF0,
     0x20, 0x60, 0x20, 0x20, 0x70,
     0xF0, 0x10, 0xF0, 0x80, 0xF0,
     0xF0, 0x10, 0xF0, 0x10, 0xF0,
     0x90, 0x90, 0xF0, 0x10, 0x10,
     0xF0, 0x80, 0xF0, 0x10, 0xF0,
     0xF0, 0x80, 0xF0, 0x90, 0xF0,
     0xF0, 0x10, 0x20, 0x40, 0x40,
     0xF0, 0x90, 0xF0, 0x90, 0xF0,
     0xF0, 0x90, 0xF0, 0x10, 0xF0,
     0xF0, 0x90, 0xF0, 0x90, 0x90,
     0xE0, 0x90, 0xE0, 0x90, 0xE0,
     0xF0, 0x80, 0x80, 0x80, 0xF0,
     0xE0, 0x90, 0x90, 0x90, 0xE0,
     0xF0, 0x80, 0xF0, 0x80, 0xF0,
     0xF0, 0x80, 0xF0, 0x80, 0x80]

/-- The defaults of R6's last column. DESIGN CHOICE (log entry 4): `State.reset` takes them; every statement is over
every configuration. -/
def Config.default : Config where
  regblockIncI := false
  font := Config.conventionalFont
  fontWritePolicy := .fault
  timerReadSlack := false

/-- What the host supplies around one cycle: the key snapshot and the random byte of `cycle(env)` (R100), the draw
a slack timer read takes (R190), and the seconds that pass between this cycle and the next (R190, R247). These are
inputs, not state of the block (R33, R34). -/
structure Env where
  /-- `env.keys`: true where the key is pressed (R33). -/
  keys : Vector Bool 16
  /-- `env.rng_byte` (R34). -/
  rngByte : Byte
  /-- The draw of `TIMER_READ_SLACK`: true picks `floor(acc) - 1` where R190 allows it. -/
  readLow : Bool
  /-- The sum of the `dt` the host passes to `update_timers` after this cycle and before the next, in seconds. -/
  elapsed : Rat
deriving DecidableEq, Repr

/-- FREE VALUE (log entry 1): the key snapshot of cycle `n` where the host has settled none. -/
opaque Config.freeKeys : Nat → Vector Bool 16

/-- FREE VALUE (log entry 1): the random byte of cycle `n`; it has no distribution law (R34, D25). -/
opaque Config.freeRngByte : Nat → Byte

/-- FREE VALUE (log entry 1): the slack draw of cycle `n` (R190). -/
opaque Config.freeReadLow : Nat → Bool

/-- FREE VALUE (log entry 1): the seconds that pass after cycle `n` (R190, D30). -/
opaque Config.freeElapsed : Nat → Rat

/-- The environment of cycle `n` when nothing constrains it (R111). -/
def Config.freeEnv (n : Nat) : Env where
  keys := Config.freeKeys n
  rngByte := Config.freeRngByte n
  readLow := Config.freeReadLow n
  elapsed := Config.freeElapsed n

end Sys2Proof
end

