-- ==== Sys2Proof/Machine/State.lean ====
section
/-! DEFINITION. The state of the block (10_state.md R20) as plain data, the faults (60_exceptions.md R230), and the
state after construction (R38, 70_reset_and_hazards.md R260). -/

namespace Sys2Proof.Machine

/-- V0..VF (R21). -/
abbrev Regs := Vector Byte 16

/-- The framebuffer, `fb[col][row]`: 64 columns of 32 cells, lit when true (R31). -/
abbrev Framebuffer := Vector (Vector Bool 32) 64

/-- Memory in its canonical form: addresses strictly rising, all below 0x1000, and no entry equal to what its
address holds at construction (`Memory.wf`). -/
abbrev Memory := List Host.Cell

/-- A timer accumulator: exact ticks of 1/60 second (R29). -/
abbrev Ticks := Rat

/-- What a cycle answers to the host when it does not fault (40_cycle.md R101). -/
inductive Answer where
  /-- no cycle has run yet (log entry 3) -/
  | idle
  /-- the instruction completed -/
  | ok
  /-- Fx0A found no key pressed (R195) -/
  | awaitingKey
deriving DecidableEq, Repr

/-- The state: first the tuple of R20, then the model's own fields. -/
structure State where
  /-- memory, 4096 bytes (R50) -/
  mem : Memory
  /-- V0..VF (R21); VF is also the flag (R23) -/
  regs : Regs
  /-- the index register (R25) -/
  I : Word
  /-- the program counter (R26) -/
  pc : Word
  /-- the call stack, the most recently pushed return address first (R28) -/
  stack : List Word
  /-- the delay timer's accumulator (R29) -/
  delay : Ticks
  /-- the sound timer's accumulator (R29) -/
  sound : Ticks
  /-- the framebuffer (R31) -/
  fb : Framebuffer
  /-- the parameters of the run (00_scope.md R6); no step changes them (log entry 4) -/
  cfg : Config
  /-- the environments the host has settled, that of the next cycle first (log entry 1) -/
  inputs : List Env
  /-- how many cycles have run: the index of the next free environment (log entry 1) -/
  turn : Nat
  /-- what the last cycle answered (R101, log entry 3) -/
  answer : Answer
deriving DecidableEq, Repr

/-- The faults of R230 with the record R101 and D32 give each: the pc and the word of the faulting instruction, and
`addr` or `value` where R230 names one. Every fault ends the run as the spec says (R108): safe. -/
inductive Fault where
  /-- Code 1, raised by the cycle's decode step on an unrecognized word (R103, R231). Safe: the spec's own outcome. -/
  | decodeError (pc word : Word)
  /-- Code 2, raised by 2nnn at depth 16 (R123, R232). Safe: the spec's own outcome. -/
  | stackOverflow (pc word : Word)
  /-- Code 3, raised by 00EE at depth 0 (R120, R233). Safe: the spec's own outcome. -/
  | stackUnderflow (pc word : Word)
  /-- Code 4, raised by the fetch (word absent, R102), Dxyn, Fx33, Fx55 and Fx65 (R234); `addr` is the lowest
  out-of-range address. Safe: the spec's own outcome. -/
  | outOfBoundsMemoryAccess (pc : Word) (word : Option Word) (addr : Nat)
  /-- Code 5, raised by every 0nnn (R121, R235). Safe: the spec's own outcome. -/
  | unimplementedSys (pc word : Word)
  /-- Code 6, raised by Ex9E and ExA1 when V[x] names no key (R192, R193, R236). Safe: the spec's own outcome. -/
  | invalidKeyIndex (pc word : Word) (value : Byte)
  /-- Code 7, raised by Fx33 and Fx55 when FONT_WRITE_POLICY is fault (R237); `addr` is the lowest font address
  written. Safe: the spec's own outcome. -/
  | fontWrite (pc word : Word) (addr : Nat)
deriving DecidableEq, Repr

/-- What the model does not run. Every instruction has its meaning, so nothing raises it. -/
inductive Refusal where
  /-- Raised by an arm of `exec` whose instruction has no meaning yet; no arm raises it. Safe: the machine stops. -/
  | notModelled (mnemonic : String)
deriving DecidableEq, Repr

/-- `construct_empty()` with the parameters `cfg` (R38, R260): memory as constructed, pc = 0x200, everything else
zero, empty or unlit. -/
def State.constructEmpty (cfg : Config) : State where
  mem := []
  regs := Vector.replicate 16 0x00
  I := 0x0000
  pc := 0x0200
  stack := []
  delay := 0
  sound := 0
  fb := Vector.replicate 64 (Vector.replicate 32 false)
  cfg := cfg
  inputs := []
  turn := 0
  answer := .idle

/-- Reset is construction (R260); the parameters take R6's defaults (log entry 4) and every environment is free
(log entry 1). -/
def State.reset : State := State.constructEmpty Config.default

end Sys2Proof.Machine
end

