-- ==== Sys2Proof/Machine/Ops.lean ====
section
/-! DEFINITION. The named operations over registers, memory, the call stack, the timers and the framebuffer, the
three ends of an instruction (completed, held, faulted), and the fetch. -/

namespace Sys2Proof.Machine

/-- What one instruction or one step answers. -/
abbrev Result := Host.Outcome State Fault Refusal

/-! ## General registers (10_state.md R21) -/

/-- `V[r]`. No register is hard-wired (R22). -/
def State.v (s : State) (r : Nibble) : Byte := s.regs[r.toNat]'r.isLt

/-- `V[r] <- b` in a register file. -/
def Regs.write (regs : Regs) (r : Nibble) (b : Byte) : Regs := regs.set r.toNat b r.isLt

/-- `V[r] <- b`. -/
def State.setV (s : State) (r : Nibble) (b : Byte) : State := { s with regs := Regs.write s.regs r b }

/-- The register that is also the flag (R23). -/
def vf : Nibble := 0xF

/-- `V[k], V[k+1], ... <- bs`, in this order; bytes past VF have no register. -/
def Regs.load (regs : Regs) : Nat → List Byte → Regs
  | _, [] => regs
  | k, b :: bs => if h : k < 16 then Regs.load (regs.set k b h) (k + 1) bs else regs

/-- `V[0], V[1], ... <- bs`. -/
def State.loadV (s : State) (bs : List Byte) : State := { s with regs := Regs.load s.regs 0 bs }

/-! ## Index register (R25) -/

/-- `I <- v`. -/
def State.setI (s : State) (v : Word) : State := { s with I := v }

/-! ## Memory (20_memory.md) -/

/-- What address `a` holds after `construct_empty()`: the font byte in 0x000..0x04F, 0x00 elsewhere (R38). This is
what an unlisted address reads as: DEDUCED (log entry 10). -/
def unlisted (font : Font) (a : Nat) : Byte := if h : a < fontEnd then font[a]'h else 0x00

/-- The byte at address `a`: the last one written there, or its construction value (R57). -/
def Memory.read (font : Font) : Memory → Nat → Byte
  | [], a => unlisted font a
  | (b, v) :: rest, a => if a = b then v else Memory.read font rest a

/-- The memory with byte `v` at address `a`, again in canonical form. -/
def Memory.write (font : Font) : Memory → Nat → Byte → Memory
  | [], a, v => if v = unlisted font a then [] else [(a, v)]
  | (b, u) :: rest, a, v =>
    if a < b then (if v = unlisted font a then (b, u) :: rest else (a, v) :: (b, u) :: rest)
    else if a = b then (if v = unlisted font a then rest else (a, v) :: rest)
    else (b, u) :: Memory.write font rest a v

/-- The bytes `bs` at `a`, `a+1`, ..., in ascending address order (R59). -/
def Memory.writeBytes (font : Font) : Memory → Nat → List Byte → Memory
  | m, _, [] => m
  | m, a, b :: bs => Memory.writeBytes font (Memory.write font m a b) (a + 1) bs

/-- The canonical form: addresses strictly rising, all inside the address space (R50), and no entry equal to what
its address reads as unlisted. -/
abbrev Memory.wf (font : Font) (m : Memory) : Prop :=
  m.Pairwise (fun c d => c.1 < d.1) ∧ ∀ c ∈ m, c.1 < memSize ∧ c.2 ≠ unlisted font c.1

/-- The byte at address `a`. -/
def State.byteAt (s : State) (a : Nat) : Byte := Memory.read s.cfg.font s.mem a

/-- The `n` bytes at `a`, `a+1`, .... -/
def State.bytesAt (s : State) : Nat → Nat → List Byte
  | _, 0 => []
  | a, n + 1 => s.byteAt a :: s.bytesAt (a + 1) n

/-- Stores the bytes `bs` from address `a` upward. -/
def State.storeBytes (s : State) (a : Nat) (bs : List Byte) : State :=
  { s with mem := Memory.writeBytes s.cfg.font s.mem a bs }

/-- The lowest out-of-range address of the access set `base .. base+len-1`, if it has one (R56): addresses are exact
integers and do not wrap. -/
def outOfRange (base len : Nat) : Option Nat :=
  if len = 0 ∨ base + len ≤ memSize then none else some (max base memSize)

/-! ## The ends of an instruction (40_cycle.md R101) -/

/-- `next_pc`'s default, `pc +16 2` (R104). -/
def State.nextPc (s : State) : Word := s.pc + 2

/-- The state of a completed cycle: `pc <- target` is its last write (R106) and the host gets Ok (R101). -/
def State.arriveAt (s : State) (target : Word) : State := { s with pc := target, answer := .ok }

/-- The instruction completed with this `next_pc`. -/
def State.jumpTo (s : State) (target : Word) : Result := .next (s.arriveAt target)

/-- Completed with the default `next_pc` (R104). -/
def State.complete (s : State) : Result := s.jumpTo s.nextPc

/-- Completed; a true condition adds 2 to the default `next_pc` and so skips one word (R129). -/
def State.skipIf (s : State) (c : Bool) : Result := s.jumpTo (if c then s.nextPc + 2 else s.nextPc)

/-- `hold AwaitingKey`: no change of the state of R20, pc included (R107, R195). -/
def State.hold (s : State) : State := { s with answer := .awaitingKey }

/-- Fault entry (60_exceptions.md R238): the cycle ends and the record goes to the host; the block saves nothing,
has no handler, and its state stays as it was before the cycle (R107), so no state comes with it. DESIGN CHOICE (log
entry 6), safe. -/
def raise (f : Fault) : Result := .fault f

/-- The fault of a data read of `base .. base+len-1` by the instruction `i`, if it has one (R56, R234). Its word is
`encode i`: DEDUCED (log entry 7), safe. -/
def State.readFault? (s : State) (i : Instr) (base len : Nat) : Option Fault :=
  (outOfRange base len).map (Fault.outOfBoundsMemoryAccess s.pc (some (encode i)))

/-- The fault of a store to `base .. base+len-1` by the instruction `i`, if it has one: bounds first, then the font
range under policy `fault` (R53, R237, R239). The lowest font address written is `base`. -/
def State.writeFault? (s : State) (i : Instr) (base len : Nat) : Option Fault :=
  match s.readFault? i base len with
  | some f => some f
  | none =>
    if s.cfg.fontWritePolicy = .fault ∧ base < fontEnd then some (.fontWrite s.pc (encode i) base) else none

/-- The code of a fault (R230). -/
def Fault.code : Fault → Nat
  | .decodeError _ _ => 1
  | .stackOverflow _ _ => 2
  | .stackUnderflow _ _ => 3
  | .outOfBoundsMemoryAccess _ _ _ => 4
  | .unimplementedSys _ _ => 5
  | .invalidKeyIndex _ _ _ => 6
  | .fontWrite _ _ _ => 7

/-- The `pc` of a fault's record (R101). -/
def Fault.recordedPc : Fault → Word
  | .decodeError pc _ | .stackOverflow pc _ | .stackUnderflow pc _ | .outOfBoundsMemoryAccess pc _ _
  | .unimplementedSys pc _ | .invalidKeyIndex pc _ _ | .fontWrite pc _ _ => pc

/-- The `word` of a fault's record, absent for a fetch fault (D32). -/
def Fault.recordedWord : Fault → Option Word
  | .decodeError _ w | .stackOverflow _ w | .stackUnderflow _ w
  | .unimplementedSys _ w | .invalidKeyIndex _ w _ | .fontWrite _ w _ => some w
  | .outOfBoundsMemoryAccess _ w _ => w

/-! ## Call stack (10_state.md R28) -/

/-- `Stack.push(v)`: none stands for StackOverflow, when the stack does not hold fewer than 16 entries
(beyond 16, which no step reaches: DESIGN CHOICE, log entry 8, safe). -/
def pushStack (stack : List Word) (v : Word) : Option (List Word) :=
  if stack.length < stackDepth then some (v :: stack) else none

/-- `Stack.pop()`: the most recently pushed entry and the rest; none stands for StackUnderflow. -/
def popStack : List Word → Option (Word × List Word)
  | [] => none
  | v :: rest => some (v, rest)

/-! ## Timers (44_keys_timers.md R190) -/

/-- `T.get()` is `floor(acc)` as a u8; with TIMER_READ_SLACK it is, where `floor(acc) >= 1`, one less when the draw
`low` says so. Outside 0 to 255 ticks, which no step reaches, it is the floor modulo 256, 0 when negative: DESIGN CHOICE
(log entry 11), safe. -/
def timerGet (slack low : Bool) (acc : Ticks) : Byte :=
  let whole := acc.floor.toNat
  BitVec.ofNat 8 (if slack && low then whole - 1 else whole)

/-- `T.set(t)`: `acc <- t`. -/
def timerSet (t : Byte) : Ticks := (t.toNat : Rat)

/-- `T.step(dt)`: `acc <- max(0, acc - 60 * dt)`, `dt` in seconds. -/
def timerStep (dt : Rat) (acc : Ticks) : Ticks := max 0 (acc - 60 * dt)

/-- `Delay.set(t)`. -/
def State.setDelay (s : State) (t : Byte) : State := { s with delay := timerSet t }

/-- `Sound.set(t)`. -/
def State.setSound (s : State) (t : Byte) : State := { s with sound := timerSet t }

/-! ## Framebuffer (43_display.md R170, R171) -/

/-- Every cell unlit (R170). -/
def clearedFb : Framebuffer := Vector.replicate 64 (Vector.replicate 32 false)

/-- The cell at column `c mod 64`, row `r mod 32`: coordinates wrap per axis (R171; log entry 15). -/
def Framebuffer.cell (fb : Framebuffer) (c r : Nat) : Bool :=
  (fb[c % 64]'(Nat.mod_lt c (by decide)))[r % 32]'(Nat.mod_lt r (by decide))

/-- XOR of that cell with 1 (R171). -/
def Framebuffer.flip (fb : Framebuffer) (c r : Nat) : Framebuffer :=
  let hc : c % 64 < 64 := Nat.mod_lt c (by decide)
  let hr : r % 32 < 32 := Nat.mod_lt r (by decide)
  let column := fb[c % 64]'hc
  fb.set (c % 64) (column.set (r % 32) (!column[r % 32]'hr) hr) hc

/-- One sprite bit (R171): a 1 toggles its cell, and toggling a lit cell is a collision. -/
def plotBit (x row : Nat) (b : Byte) (acc : Framebuffer × Bool) (sx : Nat) : Framebuffer × Bool :=
  if b.getLsbD (7 - sx) then (Framebuffer.flip acc.1 (x + sx) row, acc.2 || Framebuffer.cell acc.1 (x + sx) row)
  else acc

/-- One sprite row: sx = 0 is bit 7, the leftmost pixel (R171). -/
def plotRow (x row : Nat) (b : Byte) (acc : Framebuffer × Bool) : Framebuffer × Bool :=
  [0, 1, 2, 3, 4, 5, 6, 7].foldl (plotBit x row b) acc

/-- The sprite rows from top to bottom; `row` is the unwrapped row of the first byte (R171). -/
def plotRows (x : Nat) : Nat → List Byte → Framebuffer × Bool → Framebuffer × Bool
  | _, [], acc => acc
  | row, b :: bs, acc => plotRows x (row + 1) bs (plotRow x row b acc)

/-- `Display.draw(x, y, rows)`: the new framebuffer and `collided` (R171, R172). -/
def drawSprite (fb : Framebuffer) (x y : Byte) (rows : List Byte) : Framebuffer × Bool :=
  plotRows x.toNat y.toNat rows (fb, false)

/-- Replaces the framebuffer. -/
def State.setFb (s : State) (fb : Framebuffer) : State := { s with fb := fb }

/-- Replaces the call stack. -/
def State.setStack (s : State) (stack : List Word) : State := { s with stack := stack }

/-! ## Environment (40_cycle.md R111) and fetch (R102) -/

/-- The environment of the next cycle: the one the host has settled, else a free value (log entry 1). -/
def State.env (s : State) : Env :=
  match s.inputs with
  | e :: _ => e
  | [] => Config.freeEnv s.turn

/-- `Fetch16(a)`, big-endian (R54). -/
def State.fetch16 (s : State) (a : Nat) : Word := wordOfBytes (s.byteAt a) (s.byteAt (a + 1))

/-- The fetch of one cycle: the word at pc, or the lowest out-of-range byte of the fetch (R102). -/
def State.fetch (s : State) : Except Fault Word :=
  match outOfRange s.pc.toNat 2 with
  | some a => .error (.outOfBoundsMemoryAccess s.pc none a)
  | none => .ok (s.fetch16 s.pc.toNat)

end Sys2Proof.Machine
end

