-- ==== Sys2Proof/Machine/Flags.lean ====
section
/-! DEFINITION. Every flag computation (10_state.md R24) and the flag write, which is always the last write of a
register (R23). VF is the only flag (R35). -/

namespace Sys2Proof.Machine

/-- `bool_to_u8` (00_scope.md R8). -/
def boolToU8 (b : Bool) : Byte := if b then 0x01 else 0x00

/-- `V[0xF] <- bool_to_u8(b)` (R23). -/
def State.setFlag (s : State) (b : Bool) : State := s.setV vf (boolToU8 b)

/-- `V[x] <- result`, then the flag: when x = 0xF the flag overwrites the result (R23, 42_alu.md R140). -/
def State.setResultAndFlag (s : State) (x : Nibble) (result : Byte) (flag : Bool) : State :=
  (s.setV x result).setFlag flag

/-- Carry of 8xy4: the exact sum exceeds 255 (R147). -/
def carryOf (vx vy : Byte) : Bool := vx.toNat + vy.toNat > 255

/-- NOT borrow of `a - b`: `a >= b` (R148, R150). -/
def notBorrow (a b : Byte) : Bool := a.toNat ≥ b.toNat

/-- The bit 8xy6 shifts out: bit 0 (R149). -/
def shiftedOutRight (v : Byte) : Bool := v.getLsbD 0

/-- The bit 8xyE shifts out: bit 7 (R151). -/
def shiftedOutLeft (v : Byte) : Bool := v.getLsbD 7

end Sys2Proof.Machine
end

