-- ==== Sys2Proof/Machine/Alu.lean ====
section
/-! DEFINITION. Register loads and ALU (42_alu.md). No instruction of this file faults; the operands of 8xy_ are
read before any write and the flag is written last (R140). -/

namespace Sys2Proof.Machine

/-- LD Vx, kk (R141). -/
def execPutImm (x : Nibble) (kk : Byte) (s : State) : Result :=
  (s.setV x kk).complete

/-- ADD Vx, kk (R142): modulo 256, no flag. -/
def execAddImm (x : Nibble) (kk : Byte) (s : State) : Result :=
  (s.setV x (s.v x + kk)).complete

/-- LD Vx, Vy (R143). -/
def execApplyId (x y : Nibble) (s : State) : Result :=
  (s.setV x (s.v y)).complete

/-- OR Vx, Vy (R144): no flag. -/
def execApplyOr (x y : Nibble) (s : State) : Result :=
  (s.setV x (s.v x ||| s.v y)).complete

/-- AND Vx, Vy (R145): no flag. -/
def execApplyAnd (x y : Nibble) (s : State) : Result :=
  (s.setV x (s.v x &&& s.v y)).complete

/-- XOR Vx, Vy (R146): no flag. -/
def execApplyXor (x y : Nibble) (s : State) : Result :=
  (s.setV x (s.v x ^^^ s.v y)).complete

/-- ADD Vx, Vy (R147): VF = carry. -/
def execApplyAdd (x y : Nibble) (s : State) : Result :=
  let vx := s.v x
  let vy := s.v y
  (s.setResultAndFlag x (vx + vy) (carryOf vx vy)).complete

/-- SUB Vx, Vy (R148): VF = NOT borrow. -/
def execApplySubtract (x y : Nibble) (s : State) : Result :=
  let vx := s.v x
  let vy := s.v y
  (s.setResultAndFlag x (vx - vy) (notBorrow vx vy)).complete

/-- SHR Vx, Vy (R149): shifts Vy, VF = bit 0 of it. -/
def execApplyShiftRight (x y : Nibble) (s : State) : Result :=
  let vy := s.v y
  (s.setResultAndFlag x (vy >>> 1) (shiftedOutRight vy)).complete

/-- SUBN Vx, Vy (R150): VF = NOT borrow of vy - vx. -/
def execApplySubtractInv (x y : Nibble) (s : State) : Result :=
  let vx := s.v x
  let vy := s.v y
  (s.setResultAndFlag x (vy - vx) (notBorrow vy vx)).complete

/-- SHL Vx, Vy (R151): shifts Vy, VF = bit 7 of it. -/
def execApplyShiftLeft (x y : Nibble) (s : State) : Result :=
  let vy := s.v y
  (s.setResultAndFlag x (vy <<< 1) (shiftedOutLeft vy)).complete

/-- RND Vx, kk (R152): the cycle's random byte, masked. -/
def execRandomize (x : Nibble) (kk : Byte) (s : State) : Result :=
  (s.setV x (s.env.rngByte &&& kk)).complete

end Sys2Proof.Machine
end

