-- ==== Sys2Proof/Machine/Operands.lean ====
section
/-! DEFINITION. Every operand form: immediates (zero-extended, 30_encoding.md R73), computed jump targets, key
indices, and the memory operands at I (20_memory.md R57). Registers are read with `State.v`. -/

namespace Sys2Proof.Machine

/-- `zext_16(nnn)` (R73). -/
def zextAddr (nnn : Addr12) : Word := nnn.setWidth 16

/-- `zext_16(v)` of a byte (R8). -/
def zextByte (b : Byte) : Word := b.setWidth 16

/-- The target of Bnnn: `zext_16(nnn) + zext_16(V[0])`, always V0 and without a mask (41_control_flow.md R128). -/
def State.targetPlusV0 (s : State) (nnn : Addr12) : Word := zextAddr nnn + zextByte (s.v 0x0)

/-- The glyph address of Fx29: `FONT_BASE + 5 * zext_16(V[x])` with FONT_BASE = 0x000, not masked (R212). -/
def State.glyphAddress (s : State) (x : Nibble) : Word := 5 * zextByte (s.v x)

/-- The first address of a memory operand at I, an exact integer (R56). -/
def State.base (s : State) : Nat := s.I.toNat

/-- How many registers V0..Vx are (45_index_memory.md R214, R215). -/
def blockLength (x : Nibble) : Nat := x.toNat + 1

/-- The bytes V0..Vx, V0 first (R214). -/
def State.registerBlock (s : State) (x : Nibble) : List Byte := s.regs.toList.take (blockLength x)

/-- The bytes I..I+x of memory (R215). -/
def State.memoryBlock (s : State) (x : Nibble) : List Byte := s.bytesAt s.base (blockLength x)

/-- The sprite rows `memory[I .. I+n]`, n bytes (43_display.md R176). -/
def State.spriteRows (s : State) (n : Nibble) : List Byte := s.bytesAt s.base n.toNat

/-- Hundreds, tens and ones of a byte (R213). -/
def bcdDigits (v : Byte) : List Byte := [v / 100, v / 10 % 10, v % 10]

/-- I after Fx55 and Fx65: `I +16 (x + 1)` when REGBLOCK_INC_I, else I (R214, R215). -/
def State.indexAfterBlock (s : State) (x : Nibble) : Word :=
  if s.cfg.regblockIncI then s.I + BitVec.ofNat 16 (blockLength x) else s.I

/-- `env.keys[k]`; the key index is in range where `k` is at most 0xF (44_keys_timers.md R192). -/
def State.keyPressed (s : State) (k : Byte) : Bool := s.env.keys[k.toNat]?.getD false

/-- Whether a register value names a key: `k <= 0xF` (R192, R193). -/
def keyIndexValid (k : Byte) : Bool := k.toNat < 16

/-- The least index with a pressed key, from `k` upward (R195). -/
def lowestPressed (k : Nat) : List Bool → Option Nat
  | [] => none
  | b :: bs => if b then some k else lowestPressed (k + 1) bs

/-- The key Fx0A takes: the lowest index pressed in this cycle's snapshot (R195). -/
def State.firstKey (s : State) : Option Nat := lowestPressed 0 s.env.keys.toList

end Sys2Proof.Machine
end

