-- ==== Sys2Proof/Machine/ControlFlow.lean ====
section
/-! DEFINITION. Control transfer (41_control_flow.md). No instruction of this file writes a register. -/

namespace Sys2Proof.Machine

/-- RET (R120). -/
def execRet (s : State) : Result :=
  match popStack s.stack with
  | none => raise (.stackUnderflow s.pc (encode .ret))
  | some (target, rest) => (s.setStack rest).jumpTo target

/-- SYS nnn (R121): always the fault UnimplementedSys (the ill-formed nnn of R79 too: DESIGN CHOICE, log entry 13,
safe). -/
def execSys (nnn : Addr12) (s : State) : Result :=
  raise (.unimplementedSys s.pc (encode (.sys nnn)))

/-- JP nnn (R122). -/
def execJump (nnn : Addr12) (s : State) : Result :=
  s.jumpTo (zextAddr nnn)

/-- CALL nnn (R123): the return address is `next_pc`. -/
def execCall (nnn : Addr12) (s : State) : Result :=
  match pushStack s.stack s.nextPc with
  | none => raise (.stackOverflow s.pc (encode (.call nnn)))
  | some stack => (s.setStack stack).jumpTo (zextAddr nnn)

/-- SE Vx, kk (R124). -/
def execSkipEqImm (x : Nibble) (kk : Byte) (s : State) : Result :=
  s.skipIf (s.v x == kk)

/-- SNE Vx, kk (R125). -/
def execSkipNeImm (x : Nibble) (kk : Byte) (s : State) : Result :=
  s.skipIf (s.v x != kk)

/-- SE Vx, Vy (R126). -/
def execSkipEqReg (x y : Nibble) (s : State) : Result :=
  s.skipIf (s.v x == s.v y)

/-- SNE Vx, Vy (R127). -/
def execSkipNeReg (x y : Nibble) (s : State) : Result :=
  s.skipIf (s.v x != s.v y)

/-- JP V0, nnn (R128). -/
def execJumpPlusV0 (nnn : Addr12) (s : State) : Result :=
  s.jumpTo (s.targetPlusV0 nnn)

end Sys2Proof.Machine
end

