-- ==== Sys2Proof/Machine/Display.lean ====
section
/-! DEFINITION. Drawing (43_display.md). -/

namespace Sys2Proof.Machine

/-- CLS (R175). -/
def execClearScreen (s : State) : Result :=
  (s.setFb clearedFb).complete

/-- DRW Vx, Vy, n (R176): the coordinates are read before VF is written, and VF = collision on every n. -/
def execDraw (x y n : Nibble) (s : State) : Result :=
  match s.readFault? (.draw x y n) s.base n.toNat with
  | some f => raise f
  | none =>
    let drawn := drawSprite s.fb (s.v x) (s.v y) (s.spriteRows n)
    ((s.setFb drawn.1).setFlag drawn.2).complete

end Sys2Proof.Machine
end

