-- ==== Sys2Proof/Machine/IndexMemory.lean ====
section
/-! DEFINITION. Index register and memory instructions (45_index_memory.md). No instruction of this file writes a
flag, and every check comes before the first write (40_cycle.md R107). -/

namespace Sys2Proof.Machine

/-- LD I, nnn (R210). -/
def execSetIndex (nnn : Addr12) (s : State) : Result :=
  (s.setI (zextAddr nnn)).complete

/-- ADD I, Vx (R211): modulo 65536, no flag. -/
def execAddToIndex (x : Nibble) (s : State) : Result :=
  (s.setI (s.I + zextByte (s.v x))).complete

/-- LD F, Vx (R212). -/
def execLoadGlyphAddress (x : Nibble) (s : State) : Result :=
  (s.setI (s.glyphAddress x)).complete

/-- LD B, Vx (R213). -/
def execStoreBCD (x : Nibble) (s : State) : Result :=
  match s.writeFault? (.storeBCD x) s.base 3 with
  | some f => raise f
  | none => (s.storeBytes s.base (bcdDigits (s.v x))).complete

/-- LD [I], Vx (R214). -/
def execStoreRegisterBlock (x : Nibble) (s : State) : Result :=
  match s.writeFault? (.storeRegisterBlock x) s.base (blockLength x) with
  | some f => raise f
  | none => ((s.storeBytes s.base (s.registerBlock x)).setI (s.indexAfterBlock x)).complete

/-- LD Vx, [I] (R215). -/
def execLoadRegisterBlock (x : Nibble) (s : State) : Result :=
  match s.readFault? (.loadRegisterBlock x) s.base (blockLength x) with
  | some f => raise f
  | none => ((s.loadV (s.memoryBlock x)).setI (s.indexAfterBlock x)).complete

end Sys2Proof.Machine
end

