-- ==== Sys2Proof/Machine/KeysTimers.lean ====
section
/-! DEFINITION. Keys and timers (44_keys_timers.md). No instruction of this file writes a flag. -/

namespace Sys2Proof.Machine

/-- SKP Vx (R192). -/
def execSkipPressed (x : Nibble) (s : State) : Result :=
  if keyIndexValid (s.v x) then s.skipIf (s.keyPressed (s.v x))
  else raise (.invalidKeyIndex s.pc (encode (.skipPressed x)) (s.v x))

/-- SKNP Vx (R193). -/
def execSkipNotPressed (x : Nibble) (s : State) : Result :=
  if keyIndexValid (s.v x) then s.skipIf (!s.keyPressed (s.v x))
  else raise (.invalidKeyIndex s.pc (encode (.skipNotPressed x)) (s.v x))

/-- LD Vx, DT (R194); the slack draw counts only under TIMER_READ_SLACK (R190). -/
def execGetDelay (x : Nibble) (s : State) : Result :=
  (s.setV x (timerGet s.cfg.timerReadSlack s.env.readLow s.delay)).complete

/-- LD Vx, K (R195): the lowest pressed key, or the hold. -/
def execWaitKey (x : Nibble) (s : State) : Result :=
  .next (match s.firstKey with
    | some k => (s.setV x (BitVec.ofNat 8 k)).arriveAt s.nextPc
    | none => s.hold)

/-- LD DT, Vx (R196). -/
def execSetDelay (x : Nibble) (s : State) : Result :=
  (s.setDelay (s.v x)).complete

/-- LD ST, Vx (R197). -/
def execSetSound (x : Nibble) (s : State) : Result :=
  (s.setSound (s.v x)).complete

end Sys2Proof.Machine
end

