-- ==== Sys2Proof/Machine/Dispatch.lean ====
section
/-! DEFINITION. The dispatch of one decoded instruction to its meaning (40_cycle.md R105), one arm per row of
spec/opcode_table.json. -/

namespace Sys2Proof.Machine

def exec (i : Instr) (s : State) : Host.Outcome State Fault Refusal :=
  match i with
  | .clearScreen => Sys2Proof.Machine.execClearScreen s
  | .ret => Sys2Proof.Machine.execRet s
  | .sys nnn => Sys2Proof.Machine.execSys nnn s
  | .jump nnn => Sys2Proof.Machine.execJump nnn s
  | .call nnn => Sys2Proof.Machine.execCall nnn s
  | .skipEqImm x kk => Sys2Proof.Machine.execSkipEqImm x kk s
  | .skipNeImm x kk => Sys2Proof.Machine.execSkipNeImm x kk s
  | .skipEqReg x y => Sys2Proof.Machine.execSkipEqReg x y s
  | .putImm x kk => Sys2Proof.Machine.execPutImm x kk s
  | .addImm x kk => Sys2Proof.Machine.execAddImm x kk s
  | .applyId x y => Sys2Proof.Machine.execApplyId x y s
  | .applyOr x y => Sys2Proof.Machine.execApplyOr x y s
  | .applyAnd x y => Sys2Proof.Machine.execApplyAnd x y s
  | .applyXor x y => Sys2Proof.Machine.execApplyXor x y s
  | .applyAdd x y => Sys2Proof.Machine.execApplyAdd x y s
  | .applySubtract x y => Sys2Proof.Machine.execApplySubtract x y s
  | .applyShiftRight x y => Sys2Proof.Machine.execApplyShiftRight x y s
  | .applySubtractInv x y => Sys2Proof.Machine.execApplySubtractInv x y s
  | .applyShiftLeft x y => Sys2Proof.Machine.execApplyShiftLeft x y s
  | .skipNeReg x y => Sys2Proof.Machine.execSkipNeReg x y s
  | .setIndex nnn => Sys2Proof.Machine.execSetIndex nnn s
  | .jumpPlusV0 nnn => Sys2Proof.Machine.execJumpPlusV0 nnn s
  | .randomize x kk => Sys2Proof.Machine.execRandomize x kk s
  | .draw x y n => Sys2Proof.Machine.execDraw x y n s
  | .skipPressed x => Sys2Proof.Machine.execSkipPressed x s
  | .skipNotPressed x => Sys2Proof.Machine.execSkipNotPressed x s
  | .getDelay x => Sys2Proof.Machine.execGetDelay x s
  | .waitKey x => Sys2Proof.Machine.execWaitKey x s
  | .setDelay x => Sys2Proof.Machine.execSetDelay x s
  | .setSound x => Sys2Proof.Machine.execSetSound x s
  | .addToIndex x => Sys2Proof.Machine.execAddToIndex x s
  | .loadGlyphAddress x => Sys2Proof.Machine.execLoadGlyphAddress x s
  | .storeBCD x => Sys2Proof.Machine.execStoreBCD x s
  | .storeRegisterBlock x => Sys2Proof.Machine.execStoreRegisterBlock x s
  | .loadRegisterBlock x => Sys2Proof.Machine.execLoadRegisterBlock x s

end Sys2Proof.Machine
end

