-- ==== Sys2Proof/Machine/Transactions.lean ====
section
/-! DEFINITION. The host's transactions other than `cycle` (60_exceptions.md R247), and what the host does between
two cycles. -/

namespace Sys2Proof.Machine

/-- `construct_with_rom(bytes)` (70_reset_and_hazards.md R261); none where the ROM is longer than 3584 bytes (R262; log
entry 15). -/
def State.constructWithRom (cfg : Config) (rom : List Byte) : Option State :=
  if rom.length ≤ memSize - programStart then some ((State.constructEmpty cfg).storeBytes programStart rom) else none

/-- `update_timers(dt)`: `Delay.step(dt)`, then `Sound.step(dt)` (44_keys_timers.md R190); none where dt is negative,
which the interface refuses (log entry 15). -/
def State.updateTimers (dt : Rat) (s : State) : Option State :=
  if dt < 0 then none else some { s with delay := timerStep dt s.delay, sound := timerStep dt s.sound }

/-- `is_sound_active()` is `Sound.get() != 0` (R191); `low` is the draw this read takes under TIMER_READ_SLACK (DEDUCED,
log entry 12, safe). -/
def State.isSoundActive (low : Bool) (s : State) : Bool := timerGet s.cfg.timerReadSlack low s.sound != 0x00

/-- `display_get(c, r)` (43_display.md R174); none where c or r is out of range, which the interface
refuses (log entry 15). -/
def State.displayGet (s : State) (c r : Nat) : Option Bool :=
  if c < 64 ∧ r < 32 then some (Framebuffer.cell s.fb c r) else none

/-- One timer over the host's turn: stepped by `dt`, or as it was where `update_timers` refuses a negative `dt`. -/
def timerOverTurn (dt : Rat) (acc : Ticks) : Ticks := if dt < 0 then acc else timerStep dt acc

/-- What the host does after a cycle and before the next: its `update_timers` calls, as one elapsed time (DEDUCED, log
entry 2, safe), and the next environment comes up. -/
def State.hostTurn (s : State) : State :=
  { s with
    delay := timerOverTurn s.env.elapsed s.delay
    sound := timerOverTurn s.env.elapsed s.sound
    inputs := s.inputs.tail
    turn := s.turn + 1 }

/-- Places an instruction word where the fetch reads it: its high byte at pc, its low byte at pc+1 (R54, R102). Where
no word can be fetched at pc, pc becomes 0x200 (log entry 9). -/
def State.placeAtPc (s : State) (bytes : List Byte) : State :=
  let t := if s.pc.toNat + 2 ≤ memSize then s else { s with pc := 0x0200 }
  t.storeBytes t.pc.toNat bytes

end Sys2Proof.Machine
end

