-- ==== Sys2Proof/Machine/Step.lean ====
section
/-! DEFINITION. One `cycle` transaction (40_cycle.md R105) and the host's turn after it, and the placing of one
instruction word for the next cycle. -/

namespace Sys2Proof.Machine

/-- Fetch, decode, execute (R102 to R106). After a cycle that completes or holds, the host takes its turn before the
next cycle (R110, R247); a fault is the answer to the host, and the state stays as it was (R107). -/
def step (s : State) : Host.Outcome State Fault Refusal :=
  match s.fetch with
  | .error f => raise f
  | .ok w =>
    match decode w with
    | .unrecognizedInstruction w => raise (.decodeError s.pc w)
    | .instruction i =>
      match exec i s with
      | .next t => .next t.hostTurn
      | .fault f => .fault f
      | .refused r => .refused r

/-- `s` with the instruction word `w` where the next fetch reads it. -/
def State.withFetchWord (s : State) (nbits w : Nat) : State :=
  s.placeAtPc (tableWordBytes nbits w)

end Sys2Proof.Machine
end

