-- ==== Sys2Proof/Safety.lean ====
section
/-! DEFINITION. What the statements speak of: the invariants, what an instruction leaves unchanged, and the end of a
run (40_cycle.md R112). -/

namespace Sys2Proof.Machine

/-! ## Views -/

/-- The cell `fb[c][r]` (R31). -/
def State.pixel (s : State) (c r : Nat) : Bool := Framebuffer.cell s.fb c r

/-- Every byte of memory reads the same in both states. -/
def SameMemory (s t : State) : Prop := ∀ a, t.byteAt a = s.byteAt a

/-- Every byte of memory outside `base .. base+len-1` reads the same in both states. -/
def SameMemoryOutside (base len : Nat) (s t : State) : Prop :=
  ∀ a, a < base ∨ base + len ≤ a → t.byteAt a = s.byteAt a

/-- Every general register reads the same in both states. -/
def SameRegs (s t : State) : Prop := ∀ r, t.v r = s.v r

/-- Every cell of the framebuffer reads the same in both states. -/
def SameDisplay (s t : State) : Prop := ∀ c r, t.pixel c r = s.pixel c r

/-- Both timers hold the same. -/
def SameTimers (s t : State) : Prop := t.delay = s.delay ∧ t.sound = s.sound

/-- The parameters and the inputs of the run are the same in both states. -/
def SameRun (s t : State) : Prop := t.cfg = s.cfg ∧ t.inputs = s.inputs ∧ t.turn = s.turn

/-- Everything but the general registers, I, pc, the call stack, the timers, the framebuffer and memory: the run's
parameters and inputs are as before and the cycle answers Ok (R101; `answer` is the model's record of it, log entry 3). -/
def Completes (s t : State) : Prop := SameRun s t ∧ t.answer = .ok

/-- The frame of a jump or a skip: only pc changes. -/
def OnlyPc (s t : State) : Prop :=
  SameRegs s t ∧ t.I = s.I ∧ t.stack = s.stack ∧ SameTimers s t ∧ SameDisplay s t ∧ SameMemory s t ∧ Completes s t

/-- The frame of CALL and RET: only pc and the call stack change. -/
def OnlyPcAndStack (s t : State) : Prop :=
  SameRegs s t ∧ t.I = s.I ∧ SameTimers s t ∧ SameDisplay s t ∧ SameMemory s t ∧ Completes s t

/-- The frame of a register instruction: only general registers change, and pc advances by 2. -/
def OnlyRegs (s t : State) : Prop :=
  t.pc = s.pc + 2 ∧ t.I = s.I ∧ t.stack = s.stack ∧ SameTimers s t ∧ SameDisplay s t ∧ SameMemory s t ∧ Completes s t

/-- The frame of an index instruction: only I changes, and pc advances by 2. -/
def OnlyIndex (s t : State) : Prop :=
  t.pc = s.pc + 2 ∧ SameRegs s t ∧ t.stack = s.stack ∧ SameTimers s t ∧ SameDisplay s t ∧ SameMemory s t ∧ Completes s t

/-- The frame of CLS: only the framebuffer changes, and pc advances by 2. -/
def OnlyDisplay (s t : State) : Prop :=
  t.pc = s.pc + 2 ∧ SameRegs s t ∧ t.I = s.I ∧ t.stack = s.stack ∧ SameTimers s t ∧ SameMemory s t ∧ Completes s t

/-- The frame of DRW: only the framebuffer and VF change, and pc advances by 2. -/
def OnlyDisplayAndFlag (s t : State) : Prop :=
  t.pc = s.pc + 2 ∧ (∀ q, q ≠ vf → t.v q = s.v q) ∧ t.I = s.I ∧ t.stack = s.stack ∧ SameTimers s t ∧ SameMemory s t
    ∧ Completes s t

/-- The frame of Fx15 and Fx18: only a timer changes, and pc advances by 2. -/
def OnlyTimers (s t : State) : Prop :=
  t.pc = s.pc + 2 ∧ SameRegs s t ∧ t.I = s.I ∧ t.stack = s.stack ∧ SameDisplay s t ∧ SameMemory s t ∧ Completes s t

/-- The frame of a store to `base .. base+len-1`: those bytes (and I, where the statement says so) change, and pc
advances by 2. -/
def OnlyStores (base len : Nat) (s t : State) : Prop :=
  t.pc = s.pc + 2 ∧ SameRegs s t ∧ t.stack = s.stack ∧ SameTimers s t ∧ SameDisplay s t
    ∧ SameMemoryOutside base len s t ∧ Completes s t

/-! ## Roles of the instructions -/

/-- The flag-writing families (10_state.md R24). -/
def writesFlag : Instr → Bool
  | .applyAdd _ _ | .applySubtract _ _ | .applyShiftRight _ _ | .applySubtractInv _ _ | .applyShiftLeft _ _
  | .draw _ _ _ => true
  | _ => false

/-- The other instructions that name VF as their destination: 6Fkk, 7Fkk, 8Fy0 to 8Fy3, CFkk, FF07, FF0A, FF65 (R24). -/
def namesVf : Instr → Bool
  | .putImm x _ | .addImm x _ | .applyId x _ | .applyOr x _ | .applyAnd x _ | .applyXor x _ | .randomize x _
  | .getDelay x | .waitKey x | .loadRegisterBlock x => x == vf
  | _ => false

/-- The instructions that read `env.keys` (40_cycle.md R111). -/
def readsKeys : Instr → Bool
  | .skipPressed _ | .skipNotPressed _ | .waitKey _ => true
  | _ => false

/-- The instruction that reads `env.rng_byte` (R111). -/
def readsRandomByte : Instr → Bool
  | .randomize _ _ => true
  | _ => false

/-- The instruction that reads a timer, and so the draw of TIMER_READ_SLACK (44_keys_timers.md R190, R194). -/
def readsTimer : Instr → Bool
  | .getDelay _ => true
  | _ => false

/-- The codes of the faults an instruction can raise once decoded (60_exceptions.md R230). -/
def faultCodes : Instr → List Nat
  | .call _ => [2]
  | .ret => [3]
  | .draw _ _ _ | .loadRegisterBlock _ => [4]
  | .sys _ => [5]
  | .skipPressed _ | .skipNotPressed _ => [6]
  | .storeBCD _ | .storeRegisterBlock _ => [4, 7]
  | _ => []

/-- The instructions that write I (10_state.md R25): Annn, Fx1E, Fx29, and with REGBLOCK_INC_I also Fx55 and Fx65. -/
def writesIndex (incI : Bool) : Instr → Bool
  | .setIndex _ | .addToIndex _ | .loadGlyphAddress _ => true
  | .storeRegisterBlock _ | .loadRegisterBlock _ => incI
  | _ => false

/-- The instructions that push or pop (10_state.md R28): 2nnn and 00EE. -/
def usesStack : Instr → Bool
  | .call _ | .ret => true
  | _ => false

/-- The instructions that change the framebuffer (10_state.md R31): 00E0 and Dxyn. -/
def writesDisplay : Instr → Bool
  | .clearScreen | .draw _ _ _ => true
  | _ => false

/-- The instructions that write memory (20_memory.md R57): Fx33 and Fx55. -/
def writesMemory : Instr → Bool
  | .storeBCD _ | .storeRegisterBlock _ => true
  | _ => false

/-- Whether an instruction is Fx15 (40_cycle.md R110). -/
def setsDelay : Instr → Bool
  | .setDelay _ => true
  | _ => false

/-- Whether an instruction is Fx18 (R110). -/
def setsSound : Instr → Bool
  | .setSound _ => true
  | _ => false

/-! ## Words and sprites -/

/-- A field placed at bit `lo` of a word, zero elsewhere (30_encoding.md R71). -/
def placeField {n : Nat} (v : BitVec n) (lo : Nat) : Word := v.setWidth 16 <<< lo

/-- The word of an instruction by arithmetic on the fixed nibbles of R75 and the positions of R71 (R79). -/
def placedWord : Instr → Word
  | .clearScreen => 0x00E0
  | .ret => 0x00EE
  | .sys nnn => placeField nnn 0
  | .jump nnn => 0x1000 + placeField nnn 0
  | .call nnn => 0x2000 + placeField nnn 0
  | .skipEqImm x kk => 0x3000 + placeField x 8 + placeField kk 0
  | .skipNeImm x kk => 0x4000 + placeField x 8 + placeField kk 0
  | .skipEqReg x y => 0x5000 + placeField x 8 + placeField y 4
  | .putImm x kk => 0x6000 + placeField x 8 + placeField kk 0
  | .addImm x kk => 0x7000 + placeField x 8 + placeField kk 0
  | .applyId x y => 0x8000 + placeField x 8 + placeField y 4
  | .applyOr x y => 0x8001 + placeField x 8 + placeField y 4
  | .applyAnd x y => 0x8002 + placeField x 8 + placeField y 4
  | .applyXor x y => 0x8003 + placeField x 8 + placeField y 4
  | .applyAdd x y => 0x8004 + placeField x 8 + placeField y 4
  | .applySubtract x y => 0x8005 + placeField x 8 + placeField y 4
  | .applyShiftRight x y => 0x8006 + placeField x 8 + placeField y 4
  | .applySubtractInv x y => 0x8007 + placeField x 8 + placeField y 4
  | .applyShiftLeft x y => 0x800E + placeField x 8 + placeField y 4
  | .skipNeReg x y => 0x9000 + placeField x 8 + placeField y 4
  | .setIndex nnn => 0xA000 + placeField nnn 0
  | .jumpPlusV0 nnn => 0xB000 + placeField nnn 0
  | .randomize x kk => 0xC000 + placeField x 8 + placeField kk 0
  | .draw x y n => 0xD000 + placeField x 8 + placeField y 4 + placeField n 0
  | .skipPressed x => 0xE09E + placeField x 8
  | .skipNotPressed x => 0xE0A1 + placeField x 8
  | .getDelay x => 0xF007 + placeField x 8
  | .waitKey x => 0xF00A + placeField x 8
  | .setDelay x => 0xF015 + placeField x 8
  | .setSound x => 0xF018 + placeField x 8
  | .addToIndex x => 0xF01E + placeField x 8
  | .loadGlyphAddress x => 0xF029 + placeField x 8
  | .storeBCD x => 0xF033 + placeField x 8
  | .storeRegisterBlock x => 0xF055 + placeField x 8
  | .loadRegisterBlock x => 0xF065 + placeField x 8

/-- Every word with these fixed bits decodes to the instruction its fields make: the "Encoding" line of an
instruction's rule. -/
def EncodedAs (pattern mask : Word) (build : Word → Instr) : Prop :=
  ∀ w, w &&& mask = pattern → decode w = .instruction (build w)

/-- Bit `sx` (0 the leftmost) of sprite row `sy` at I is 1 (43_display.md R171, R176). -/
def SpriteBit (s : State) (sy sx : Nat) : Prop := (s.byteAt (s.I.toNat + sy)).getLsbD (7 - sx) = true

/-- A 1 bit of the `n`-row sprite at I, drawn at (V[x], V[y]), lands on the cell (c, r) (R171). -/
def SpriteCovers (s : State) (x y n : Nibble) (c r : Nat) : Prop :=
  ∃ sy < n.toNat, ∃ sx < 8,
    SpriteBit s sy sx ∧ c = ((s.v x).toNat + sx) % 64 ∧ r = ((s.v y).toNat + sy) % 32

/-- An answer with other inputs in its next state. -/
def withInputs (inputs : List Env) (turn : Nat) : Result → Result
  | .next t => .next { t with inputs := inputs, turn := turn }
  | .fault f => .fault f
  | .refused r => .refused r

/-! ## Invariants -/

/-- A timer's bounds, `0 <= acc <= 255` (10_state.md R29, R30). -/
def timerInRange (acc : Ticks) : Prop := 0 ≤ acc ∧ acc ≤ 255

/-- What every state of the block satisfies: memory in canonical form, at most 16 return addresses (R28), and both
timers in range (R30). -/
structure StateInv (s : State) : Prop where
  mem : Memory.wf s.cfg.font s.mem
  stack : s.stack.length ≤ stackDepth
  delay : timerInRange s.delay
  sound : timerInRange s.sound

/-- The bound of R27 on pc and the return addresses: a cycle that fetches has pc at most 0xFFE, so it leaves pc at most
0x10FE and pushes at most 0x1000. -/
structure PcInv (s : State) : Prop where
  pc : s.pc.toNat ≤ 0x10FE
  stack : ∀ v ∈ s.stack, v.toNat ≤ 0x1000

/-- The font is as it was constructed: "never mutated afterward" (20_memory.md R53). -/
def FontIntact (s : State) : Prop := ∀ a (h : a < fontEnd), s.byteAt a = s.cfg.font[a]'h

/-! ## Runs -/

/-- The end of a run: the word at pc is `1nnn` with `nnn == pc` (R112), before that cycle executes. -/
def State.atRunEnd (s : State) : Bool :=
  match s.fetch with
  | .ok w => decode w == .instruction (.jump (s.pc.setWidth 12)) && s.pc.toNat < memSize
  | .error _ => false

/-- A safe cycle: it does not fault. -/
def State.cycleSafe (s : State) : Bool :=
  match step s with
  | .next _ => true
  | .fault _ => false
  | .refused _ => false

end Sys2Proof.Machine
end

