-- ==== Sys2Proof/Certificates/Slice0/Obligations.lean ====
section
/-! DEFINITION. The statements about the model, from the numbered rules of spec/; OBLIGATIONS.json lists them. Each
holds for every configuration (`cfg`), every environment, and every state its hypotheses admit. -/

open Sys2Proof Sys2Proof.Machine

/-! ## Encoding -/

/-- R79: encoding places every field at its position and is the inverse of decoding, both ways. -/
def Obligations.DecodeInvertsEncode : Prop :=
  (∀ i, encode i = placedWord i) ∧
  (∀ i, wellFormed i = true → decode (encode i) = .instruction i) ∧
  (∀ nnn, wellFormed (.sys nnn) = true ↔ nnn ≠ 0x0E0#12 ∧ nnn ≠ 0x0EE#12) ∧
  (∀ w i, decode w = .instruction i → wellFormed i = true ∧ encode i = w) ∧
  (∀ w w' i, decode w = .instruction i → decode w' = .instruction i → w = w')

/-- R74: the first (match, mask) pair of the opcode table that a word matches selects its instruction; a word that
matches none is unrecognized. Two rows match one word only where that word is 00E0 or 00EE. -/
def Obligations.DecodeFollowsOpcodeTable : Prop :=
  (∀ w, decode w =
    match opcodeTable.find? (rowMatches w) with
    | some row => .instruction (row.build w)
    | none => .unrecognizedInstruction w) ∧
  ∀ w, ∀ row ∈ opcodeTable, ∀ other ∈ opcodeTable, rowMatches w row = true → rowMatches w other = true →
    row.pattern = other.pattern ∨ w = 0x00E0 ∨ w = 0x00EE

/-- R76: which words of each high-nibble group decode. -/
def Obligations.FixedSubFieldsAreChecked : Prop :=
  ∀ w : Word,
    ((∃ i, decode w = .instruction i) ∨ decode w = .unrecognizedInstruction w) ∧
    ((w >>> 12 = 0x5 ∨ w >>> 12 = 0x9) → (decode w = .unrecognizedInstruction w ↔ w &&& 0xF ≠ 0x0)) ∧
    (w >>> 12 = 0x8 → (decode w = .unrecognizedInstruction w ↔
      w &&& 0xF ∉ ([0x0, 0x1, 0x2, 0x3, 0x4, 0x5, 0x6, 0x7, 0xE] : List Word))) ∧
    (w >>> 12 = 0xE → (decode w = .unrecognizedInstruction w ↔ w &&& 0xFF ∉ ([0x9E, 0xA1] : List Word))) ∧
    (w >>> 12 = 0xF → (decode w = .unrecognizedInstruction w ↔
      w &&& 0xFF ∉ ([0x07, 0x0A, 0x15, 0x18, 0x1E, 0x29, 0x33, 0x55, 0x65] : List Word))) ∧
    (w >>> 12 = 0xD → ∃ x y n, decode w = .instruction (.draw x y n)) ∧
    (w >>> 12 = 0x0 → decode w = .instruction .clearScreen ∨ decode w = .instruction .ret ∨
      ∃ nnn, decode w = .instruction (.sys nnn)) ∧
    (w >>> 12 ∉ ([0x5, 0x8, 0x9, 0xE, 0xF] : List Word) → ∃ i, decode w = .instruction i)

/-- Words written out from the spec (95_test_vectors.md S11 to S13 and one row per family of R75). -/
def Obligations.SampleWordsDecode : Prop :=
  decode 0x00E0 = .instruction .clearScreen ∧
  decode 0x2020 = .instruction (.call 0x020) ∧
  decode 0x3109 = .instruction (.skipEqImm 0x1 0x09) ∧
  decode 0x8125 = .instruction (.applySubtract 0x1 0x2) ∧
  decode 0xD015 = .instruction (.draw 0x0 0x1 0x5) ∧
  decode 0xE29E = .instruction (.skipPressed 0x2) ∧
  decode 0xF50A = .instruction (.waitKey 0x5) ∧
  decode 0xF265 = .instruction (.loadRegisterBlock 0x2) ∧
  decode 0x5231 = .unrecognizedInstruction 0x5231

/-! ## The cycle -/

/-- R105: a cycle runs the decoded instruction. What the step adds around it is the host's turn: both timers step by
the environment's elapsed time (a negative one is refused, log entry 2), and the next environment comes up (log entry 1). -/
def Obligations.StepRunsDecodedInstruction : Prop :=
  (∀ s i, s.pc.toNat ≤ 0xFFE → decode (s.fetch16 s.pc.toNat) = .instruction i →
    step s =
      match exec i s with
      | .next t => .next t.hostTurn
      | .fault f => .fault f
      | .refused r => .refused r) ∧
  ∀ t : State, t.hostTurn =
    { t with
      delay := if t.env.elapsed < 0 then t.delay else max 0 (t.delay - 60 * t.env.elapsed)
      sound := if t.env.elapsed < 0 then t.sound else max 0 (t.sound - 60 * t.env.elapsed)
      inputs := t.inputs.tail
      turn := t.turn + 1 }

/-- R102: the fetch reads the big-endian word at pc, or faults with the lowest out-of-range byte and no word. -/
def Obligations.FetchReadsWordOrFaults : Prop :=
  ∀ s : State,
    (s.pc.toNat < 0xFFF → s.fetch =
      .ok (((s.byteAt s.pc.toNat).setWidth 16 <<< 8) ||| (s.byteAt (s.pc.toNat + 1)).setWidth 16)) ∧
    (s.pc.toNat = 0xFFF → step s = .fault (.outOfBoundsMemoryAccess s.pc none 0x1000)) ∧
    (0xFFF < s.pc.toNat → step s = .fault (.outOfBoundsMemoryAccess s.pc none s.pc.toNat))

/-- R103: an unrecognized word ends the cycle with DecodeError. -/
def Obligations.UnrecognizedWordFaults : Prop :=
  ∀ s w, s.fetch = .ok w → decode w = .unrecognizedInstruction w → step s = .fault (.decodeError s.pc w)

/-- R108: a fault depends only on pc, memory, registers, I, the stack and the parameters, so a later cycle raises it
again, whatever the timers, the display and the environment are by then. -/
def Obligations.FaultsAreFinal : Prop :=
  ∀ s s' f, step s = .fault f →
    s'.pc = s.pc → s'.mem = s.mem → s'.regs = s.regs → s'.I = s.I → s'.stack = s.stack → s'.cfg = s.cfg →
    step s' = .fault f

/-- R111: the key snapshot, the random byte and the draw of a timer read reach only their readers (that they
stand in State is the model's choice, log entry 1). -/
def Obligations.InputsReachOnlyTheirReaders : Prop :=
  ∀ (i : Instr) (s : State) (inputs : List Env) (turn : Nat),
    let s' : State := { s with inputs := inputs, turn := turn }
    (readsKeys i = true → s'.env.keys = s.env.keys) →
    (readsRandomByte i = true → s'.env.rngByte = s.env.rngByte) →
    (readsTimer i = true → s.cfg.timerReadSlack = true → s'.env.readLow = s.env.readLow) →
    exec i s' = withInputs inputs turn (exec i s)

/-- R112: at the end of a run the jump to itself leaves everything but the answer as it was; the host's turn follows
(log entries 1 to 3: the model's form of both). -/
def Obligations.RunEndLoopsForever : Prop :=
  ∀ s : State, s.atRunEnd = true → step s = .next { s with answer := .ok }.hostTurn ∧
    (∀ t, step s = .next t → t.atRunEnd = true)

/-- R230: which faults an instruction raises once decoded, and that the record names its pc and its word,
`encode` of the instruction: DEDUCED from R79 (log entry 7). -/
def Obligations.FaultsAreOfTheListedKinds : Prop :=
  ∀ i s f, exec i s = .fault f →
    f.code ∈ faultCodes i ∧ f.recordedPc = s.pc ∧ f.recordedWord = some (encode i)

/-- No instruction is refused: every one has its meaning. -/
def Obligations.NoInstructionIsRefused : Prop :=
  ∀ i s r, exec i s ≠ .refused r

/-! ## Invariants and whole-machine rules -/

/-- Every step keeps memory in canonical form, the stack within 16 entries and both timers within 0 to 255. -/
def Obligations.StepKeepsStateInvariant : Prop :=
  ∀ s t, StateInv s → step s = .next t → StateInv t

/-- R27: every step keeps pc at most 0x10FE and every return address at most 0x1000, so pc never wraps. -/
def Obligations.StepKeepsPcBound : Prop :=
  ∀ s t, PcInv s → step s = .next t → PcInv t

/-- R53: under FONT_WRITE_POLICY = fault the font is never mutated. -/
def Obligations.StepKeepsFontIntact : Prop :=
  ∀ s t, StateInv s → s.cfg.fontWritePolicy = .fault → FontIntact s → step s = .next t → FontIntact t

/-- R260, R261: the invariants hold after either construction, for every configuration and every ROM that is loaded
(`State.reset` is the first with the default parameters, log entry 4). -/
def Obligations.ConstructionMeetsInvariants : Prop :=
  ∀ cfg,
    (StateInv (State.constructEmpty cfg) ∧ PcInv (State.constructEmpty cfg) ∧ FontIntact (State.constructEmpty cfg)) ∧
    ∀ rom s, State.constructWithRom cfg rom = some s → StateInv s ∧ PcInv s ∧ FontIntact s

/-- R24: the flag families leave 0 or 1 in VF, whatever their destination; every other instruction that does not name
VF as its destination leaves VF as it was. -/
def Obligations.FlagIsWrittenByItsFamiliesOnly : Prop :=
  ∀ i s t, exec i s = .next t →
    (writesFlag i = true → t.v vf = 0x00 ∨ t.v vf = 0x01) ∧
    (writesFlag i = false → namesVf i = false → t.v vf = s.v vf)

/-- R25, R28, R31, R57, R110 and R20: each piece of state changes only by the instructions the spec names for it, and
no instruction changes the parameters or the inputs of the run. -/
def Obligations.StateChangesOnlyByItsWriters : Prop :=
  ∀ i s t, exec i s = .next t →
    (writesIndex s.cfg.regblockIncI i = false → t.I = s.I) ∧
    (usesStack i = false → t.stack = s.stack) ∧
    (writesDisplay i = false → SameDisplay s t) ∧
    (writesMemory i = false → SameMemory s t) ∧
    (setsDelay i = false → t.delay = s.delay) ∧
    (setsSound i = false → t.sound = s.sound) ∧
    SameRun s t

/-! ## Construction -/

/-- R260: construct_empty() for every configuration; State.reset is it with the default parameters (log entry 4). -/
def Obligations.ConstructEmptyState : Prop :=
  ∀ cfg, let s := State.constructEmpty cfg
    s.pc = 0x200 ∧ (∀ r, s.v r = 0x00) ∧ s.I = 0x0000 ∧ s.stack = [] ∧ s.delay = 0 ∧ s.sound = 0 ∧
    (∀ c r, s.pixel c r = false) ∧ (∀ a (h : a < 0x50), s.byteAt a = cfg.font[a]'h) ∧
    (∀ a, 0x50 ≤ a → a < 0x1000 → s.byteAt a = 0x00)

/-- R261, R262: a ROM of at most 3584 bytes is copied verbatim to 0x200 onward over the state of construct_empty; a
longer one is refused. -/
def Obligations.RomIsLoadedVerbatim : Prop :=
  ∀ (cfg : Config) (rom : List Byte),
    (rom.length ≤ 3584 → ∃ s, State.constructWithRom cfg rom = some s ∧
      (∀ k (h : k < rom.length), s.byteAt (0x200 + k) = rom[k]) ∧
      SameMemoryOutside 0x200 rom.length (State.constructEmpty cfg) s ∧
      { s with mem := [] } = State.constructEmpty cfg) ∧
    (3584 < rom.length → State.constructWithRom cfg rom = none)

/-! ## Control transfer -/

/-- R122: JP sets pc to nnn and changes nothing else. -/
def Obligations.JumpSetsPc : Prop :=
  EncodedAs 0x1000 0xF000 (fun w => .jump (w.extractLsb' 0 12)) ∧
  ∀ nnn s, ∃ t, exec (.jump nnn) s = .next t ∧ t.pc.toNat = nnn.toNat ∧ OnlyPc s t

/-- R123: CALL pushes pc + 2 and jumps, or faults StackOverflow when the stack holds 16 entries. The fault's word is `encode` of the
instruction: DEDUCED from R79 (log entry 7). -/
def Obligations.CallPushesReturnAddress : Prop :=
  EncodedAs 0x2000 0xF000 (fun w => .call (w.extractLsb' 0 12)) ∧
  ∀ nnn s,
    (s.stack.length < 16 → ∃ t, exec (.call nnn) s = .next t ∧
      t.stack = (s.pc + 2) :: s.stack ∧ t.pc.toNat = nnn.toNat ∧ OnlyPcAndStack s t) ∧
    (s.stack.length = 16 → exec (.call nnn) s = .fault (.stackOverflow s.pc (encode (.call nnn))))

/-- R120: RET pops the entry pushed last into pc, or faults StackUnderflow on the empty stack. -/
def Obligations.RetPopsReturnAddress : Prop :=
  decode 0x00EE = .instruction .ret ∧
  ∀ s,
    (∀ v rest, s.stack = v :: rest → ∃ t, exec .ret s = .next t ∧
      t.pc = v ∧ t.stack = rest ∧ OnlyPcAndStack s t) ∧
    (s.stack = [] → exec .ret s = .fault (.stackUnderflow s.pc 0x00EE))

/-- R120, R123: a RET after a CALL, from wherever the subroutine stands, continues after the CALL with the caller's
stack. -/
def Obligations.RetReturnsAfterCall : Prop :=
  ∀ nnn s t pc, exec (.call nnn) s = .next t →
    ∃ u, exec .ret { t with pc := pc } = .next u ∧ u.pc = s.pc + 2 ∧ u.stack = s.stack

/-- R121: every Sys faults UnimplementedSys. That the ill-formed Sys(0x0E0) and Sys(0x0EE), which R79 calls invalid and
no word decodes to, fault so too is the model's choice (log entry 13). The fault's word is `encode` of the instruction:
DEDUCED from R79 (log entry 7). -/
def Obligations.SysAlwaysFaults : Prop :=
  (∀ w : Word, w &&& 0xF000 = 0x0000 → w ≠ 0x00E0 → w ≠ 0x00EE → decode w = .instruction (.sys (w.extractLsb' 0 12))) ∧
  ∀ nnn s, exec (.sys nnn) s = .fault (.unimplementedSys s.pc (encode (.sys nnn)))

/-- R124, R125: the immediate skips compare V[x] with kk. -/
def Obligations.ImmediateSkips : Prop :=
  EncodedAs 0x3000 0xF000 (fun w => .skipEqImm (w.extractLsb' 8 4) (w.extractLsb' 0 8)) ∧
  EncodedAs 0x4000 0xF000 (fun w => .skipNeImm (w.extractLsb' 8 4) (w.extractLsb' 0 8)) ∧
  ∀ x kk s,
    (∃ t, exec (.skipEqImm x kk) s = .next t ∧ t.pc = (if s.v x = kk then s.pc + 4 else s.pc + 2) ∧ OnlyPc s t) ∧
    (∃ t, exec (.skipNeImm x kk) s = .next t ∧ t.pc = (if s.v x ≠ kk then s.pc + 4 else s.pc + 2) ∧ OnlyPc s t)

/-- R126, R127: the register skips compare V[x] with V[y]. -/
def Obligations.RegisterSkips : Prop :=
  EncodedAs 0x5000 0xF00F (fun w => .skipEqReg (w.extractLsb' 8 4) (w.extractLsb' 4 4)) ∧
  EncodedAs 0x9000 0xF00F (fun w => .skipNeReg (w.extractLsb' 8 4) (w.extractLsb' 4 4)) ∧
  ∀ x y s,
    (∃ t, exec (.skipEqReg x y) s = .next t ∧ t.pc = (if s.v x = s.v y then s.pc + 4 else s.pc + 2) ∧ OnlyPc s t) ∧
    (∃ t, exec (.skipNeReg x y) s = .next t ∧ t.pc = (if s.v x ≠ s.v y then s.pc + 4 else s.pc + 2) ∧ OnlyPc s t)

/-- R128: Bnnn adds V0 to nnn without a 12-bit mask. -/
def Obligations.JumpPlusV0AddsUnmasked : Prop :=
  EncodedAs 0xB000 0xF000 (fun w => .jumpPlusV0 (w.extractLsb' 0 12)) ∧
  ∀ nnn s, ∃ t, exec (.jumpPlusV0 nnn) s = .next t ∧ t.pc.toNat = nnn.toNat + (s.v 0x0).toNat ∧ OnlyPc s t

/-! ## Register loads and ALU -/

/-- R141, R142: LD Vx, kk and ADD Vx, kk write V[x] alone; the sum wraps and no flag is written. -/
def Obligations.ImmediateLoadAndAdd : Prop :=
  EncodedAs 0x6000 0xF000 (fun w => .putImm (w.extractLsb' 8 4) (w.extractLsb' 0 8)) ∧
  EncodedAs 0x7000 0xF000 (fun w => .addImm (w.extractLsb' 8 4) (w.extractLsb' 0 8)) ∧
  ∀ x kk s,
    (∃ t, exec (.putImm x kk) s = .next t ∧ (∀ q, t.v q = if q = x then kk else s.v q) ∧ OnlyRegs s t) ∧
    (∃ t, exec (.addImm x kk) s = .next t ∧ (t.v x).toNat = ((s.v x).toNat + kk.toNat) % 256 ∧
      (∀ q, q ≠ x → t.v q = s.v q) ∧ OnlyRegs s t)

/-- R143 to R146: LD, OR, AND and XOR write V[x] alone; no flag is written. -/
def Obligations.LogicWritesNoFlag : Prop :=
  EncodedAs 0x8000 0xF00F (fun w => .applyId (w.extractLsb' 8 4) (w.extractLsb' 4 4)) ∧
  EncodedAs 0x8001 0xF00F (fun w => .applyOr (w.extractLsb' 8 4) (w.extractLsb' 4 4)) ∧
  EncodedAs 0x8002 0xF00F (fun w => .applyAnd (w.extractLsb' 8 4) (w.extractLsb' 4 4)) ∧
  EncodedAs 0x8003 0xF00F (fun w => .applyXor (w.extractLsb' 8 4) (w.extractLsb' 4 4)) ∧
  ∀ x y s,
    (∃ t, exec (.applyId x y) s = .next t ∧ (∀ q, t.v q = if q = x then s.v y else s.v q) ∧ OnlyRegs s t) ∧
    (∃ t, exec (.applyOr x y) s = .next t ∧ (∀ q, t.v q = if q = x then s.v x ||| s.v y else s.v q) ∧ OnlyRegs s t) ∧
    (∃ t, exec (.applyAnd x y) s = .next t ∧ (∀ q, t.v q = if q = x then s.v x &&& s.v y else s.v q) ∧ OnlyRegs s t) ∧
    (∃ t, exec (.applyXor x y) s = .next t ∧ (∀ q, t.v q = if q = x then s.v x ^^^ s.v y else s.v q) ∧ OnlyRegs s t)

/-- R147: ADD Vx, Vy; VF is the carry also when x = F. -/
def Obligations.AddSetsCarryLast : Prop :=
  EncodedAs 0x8004 0xF00F (fun w => .applyAdd (w.extractLsb' 8 4) (w.extractLsb' 4 4)) ∧
  ∀ x y s, ∃ t, exec (.applyAdd x y) s = .next t ∧
    (x ≠ vf → (t.v x).toNat = ((s.v x).toNat + (s.v y).toNat) % 256) ∧
    t.v vf = (if (s.v x).toNat + (s.v y).toNat > 255 then 0x01 else 0x00) ∧
    (∀ q, q ≠ x → q ≠ vf → t.v q = s.v q) ∧ OnlyRegs s t

/-- R148, R150: SUB and SUBN; VF is NOT borrow also when x = F. -/
def Obligations.SubtractSetsNotBorrowLast : Prop :=
  EncodedAs 0x8005 0xF00F (fun w => .applySubtract (w.extractLsb' 8 4) (w.extractLsb' 4 4)) ∧
  EncodedAs 0x8007 0xF00F (fun w => .applySubtractInv (w.extractLsb' 8 4) (w.extractLsb' 4 4)) ∧
  ∀ x y s,
    (∃ t, exec (.applySubtract x y) s = .next t ∧
      (x ≠ vf → ((t.v x).toNat : Int) = ((s.v x).toNat - (s.v y).toNat : Int) % 256) ∧
      t.v vf = (if (s.v y).toNat ≤ (s.v x).toNat then 0x01 else 0x00) ∧
      (∀ q, q ≠ x → q ≠ vf → t.v q = s.v q) ∧ OnlyRegs s t) ∧
    (∃ t, exec (.applySubtractInv x y) s = .next t ∧
      (x ≠ vf → ((t.v x).toNat : Int) = ((s.v y).toNat - (s.v x).toNat : Int) % 256) ∧
      t.v vf = (if (s.v x).toNat ≤ (s.v y).toNat then 0x01 else 0x00) ∧
      (∀ q, q ≠ x → q ≠ vf → t.v q = s.v q) ∧ OnlyRegs s t)

/-- R149, R151: SHR and SHL shift Vy; VF is the bit shifted out also when x = F. -/
def Obligations.ShiftsReadVyAndSetShiftedOutBit : Prop :=
  EncodedAs 0x8006 0xF00F (fun w => .applyShiftRight (w.extractLsb' 8 4) (w.extractLsb' 4 4)) ∧
  EncodedAs 0x800E 0xF00F (fun w => .applyShiftLeft (w.extractLsb' 8 4) (w.extractLsb' 4 4)) ∧
  ∀ x y s,
    (∃ t, exec (.applyShiftRight x y) s = .next t ∧
      (x ≠ vf → (t.v x).toNat = (s.v y).toNat / 2) ∧ (t.v vf).toNat = (s.v y).toNat % 2 ∧
      (∀ q, q ≠ x → q ≠ vf → t.v q = s.v q) ∧ OnlyRegs s t) ∧
    (∃ t, exec (.applyShiftLeft x y) s = .next t ∧
      (x ≠ vf → (t.v x).toNat = (s.v y).toNat * 2 % 256) ∧ (t.v vf).toNat = (s.v y).toNat / 128 ∧
      (∀ q, q ≠ x → q ≠ vf → t.v q = s.v q) ∧ OnlyRegs s t)

/-- R152: RND masks the cycle's random byte. -/
def Obligations.RandomizeMasksTheRandomByte : Prop :=
  EncodedAs 0xC000 0xF000 (fun w => .randomize (w.extractLsb' 8 4) (w.extractLsb' 0 8)) ∧
  ∀ x kk s, ∃ t, exec (.randomize x kk) s = .next t ∧
    (∀ q, t.v q = if q = x then s.env.rngByte &&& kk else s.v q) ∧ OnlyRegs s t

/-! ## Display -/

/-- R175: CLS unlights every cell and changes nothing else. -/
def Obligations.ClearScreenUnlightsEveryCell : Prop :=
  decode 0x00E0 = .instruction .clearScreen ∧
  ∀ s, ∃ t, exec .clearScreen s = .next t ∧ (∀ c r, t.pixel c r = false) ∧ OnlyDisplay s t

/-- R171, R172, R176: DRW toggles exactly the cells a 1 bit of the sprite lands on, VF says whether one of them was
lit, and the fault of a sprite that reaches past 0xFFF changes nothing. The fault's word is `encode` of the instruction:
DEDUCED from R79 (log entry 7). -/
def Obligations.DrawPlotsByXorAndReportsCollision : Prop :=
  EncodedAs 0xD000 0xF000 (fun w => .draw (w.extractLsb' 8 4) (w.extractLsb' 4 4) (w.extractLsb' 0 4)) ∧
  ∀ x y n s,
    (n = 0x0 ∨ s.I.toNat + n.toNat ≤ 0x1000 → ∃ t, exec (.draw x y n) s = .next t ∧
      (∀ c r, c < 64 → r < 32 → SpriteCovers s x y n c r → t.pixel c r = !s.pixel c r) ∧
      (∀ c r, c < 64 → r < 32 → ¬ SpriteCovers s x y n c r → t.pixel c r = s.pixel c r) ∧
      ((∃ c r, SpriteCovers s x y n c r ∧ s.pixel c r = true) → t.v vf = 0x01) ∧
      ((∀ c r, SpriteCovers s x y n c r → s.pixel c r = false) → t.v vf = 0x00) ∧
      OnlyDisplayAndFlag s t) ∧
    (n ≠ 0x0 → 0x1000 < s.I.toNat + n.toNat → exec (.draw x y n) s =
      .fault (.outOfBoundsMemoryAccess s.pc (some (encode (.draw x y n))) (max s.I.toNat 0x1000)))

/-- 95_test_vectors.md S10: the same draw twice restores the framebuffer; over unlit cells the first reports no
collision and the second reports one exactly when the sprite has a 1 bit. -/
def Obligations.DrawTwiceRestoresDisplay : Prop :=
  ∀ x y n s t, x ≠ vf → y ≠ vf → exec (.draw x y n) s = .next t →
    ∃ u, exec (.draw x y n) t = .next u ∧ SameDisplay s u ∧
      ((∀ c r, SpriteCovers s x y n c r → s.pixel c r = false) →
        t.v vf = 0x00 ∧ ((∃ sy < n.toNat, ∃ sx < 8, SpriteBit s sy sx) → u.v vf = 0x01) ∧
        ((∀ sy < n.toNat, ∀ sx < 8, ¬ SpriteBit s sy sx) → u.v vf = 0x00))

/-! ## Keys and timers -/

/-- R192, R193: the key skips test key V[x], or fault InvalidKeyIndex when V[x] names none. The fault's word is `encode` of the
instruction: DEDUCED from R79 (log entry 7). -/
def Obligations.KeySkipsTestTheSnapshot : Prop :=
  EncodedAs 0xE09E 0xF0FF (fun w => .skipPressed (w.extractLsb' 8 4)) ∧
  EncodedAs 0xE0A1 0xF0FF (fun w => .skipNotPressed (w.extractLsb' 8 4)) ∧
  ∀ x s,
    (∀ h : (s.v x).toNat < 16,
      (∃ t, exec (.skipPressed x) s = .next t ∧
        t.pc = (if s.env.keys[(s.v x).toNat] = true then s.pc + 4 else s.pc + 2) ∧ OnlyPc s t) ∧
      (∃ t, exec (.skipNotPressed x) s = .next t ∧
        t.pc = (if s.env.keys[(s.v x).toNat] = false then s.pc + 4 else s.pc + 2) ∧ OnlyPc s t)) ∧
    (16 ≤ (s.v x).toNat →
      exec (.skipPressed x) s = .fault (.invalidKeyIndex s.pc (encode (.skipPressed x)) (s.v x)) ∧
      exec (.skipNotPressed x) s = .fault (.invalidKeyIndex s.pc (encode (.skipNotPressed x)) (s.v x)))

/-- R194, R190: LD Vx, DT writes floor(acc); under TIMER_READ_SLACK the draw picks one less where floor(acc) is at least
1. That the draw stands in the cycle's environment is the model's form of it (log entries 1 and 12). -/
def Obligations.GetDelayReadsWholeTicks : Prop :=
  EncodedAs 0xF007 0xF0FF (fun w => .getDelay (w.extractLsb' 8 4)) ∧
  ∀ x s, timerInRange s.delay → ∃ t, exec (.getDelay x) s = .next t ∧
    ((t.v x).toNat : Int) =
      (if s.cfg.timerReadSlack = true ∧ s.env.readLow = true ∧ 1 ≤ s.delay.floor then s.delay.floor - 1
        else s.delay.floor) ∧
    (∀ q, q ≠ x → t.v q = s.v q) ∧ OnlyRegs s t

/-- R195: LD Vx, K takes the lowest pressed key; with none pressed the cycle holds and changes nothing but its
answer, the model's record of the outcome AwaitingKey (log entry 3). -/
def Obligations.WaitKeyTakesLowestKeyOrHolds : Prop :=
  EncodedAs 0xF00A 0xF0FF (fun w => .waitKey (w.extractLsb' 8 4)) ∧
  ∀ x s,
    ((∀ k (h : k < 16), s.env.keys[k] = false) → exec (.waitKey x) s = .next { s with answer := .awaitingKey }) ∧
    (∀ k (h : k < 16), s.env.keys[k] = true → (∀ j (hj : j < k), s.env.keys[j] = false) →
      ∃ t, exec (.waitKey x) s = .next t ∧ (t.v x).toNat = k ∧ (∀ q, q ≠ x → t.v q = s.v q) ∧ OnlyRegs s t)

/-- R196, R197: LD DT, Vx and LD ST, Vx set one timer to V[x] ticks. -/
def Obligations.SetTimersStoreWholeTicks : Prop :=
  EncodedAs 0xF015 0xF0FF (fun w => .setDelay (w.extractLsb' 8 4)) ∧
  EncodedAs 0xF018 0xF0FF (fun w => .setSound (w.extractLsb' 8 4)) ∧
  ∀ x s,
    (∃ t, exec (.setDelay x) s = .next t ∧ t.delay = ((s.v x).toNat : Rat) ∧ t.sound = s.sound ∧ OnlyTimers s t) ∧
    (∃ t, exec (.setSound x) s = .next t ∧ t.sound = ((s.v x).toNat : Rat) ∧ t.delay = s.delay ∧ OnlyTimers s t ∧
      (s.cfg.timerReadSlack = false → ∀ low, t.isSoundActive low = (s.v x != 0x00)))

/-- R190: update_timers(dt) steps both timers by 60 * dt ticks, floored at 0, and changes nothing else; a negative dt
is refused. -/
def Obligations.UpdateTimersStepsBoth : Prop :=
  ∀ (dt : Rat) (s : State),
    (dt < 0 → s.updateTimers dt = none) ∧
    (0 ≤ dt → s.updateTimers dt =
      some { s with delay := max 0 (s.delay - 60 * dt), sound := max 0 (s.sound - 60 * dt) })

/-- R190, 95_test_vectors.md S14: two updates equal one update by the sum. -/
def Obligations.UpdateTimersIsAdditive : Prop :=
  ∀ (a b : Rat) (s : State), 0 ≤ a → 0 ≤ b → (s.updateTimers a).bind (State.updateTimers b) = s.updateTimers (a + b)

/-- R191, R190: is_sound_active is Sound.get() != 0; with exact reads that is sound.acc >= 1. That each read takes a draw
of its own, here the argument `low`, is log entry 12 (DEDUCED). -/
def Obligations.SoundIsActiveFromOneTick : Prop :=
  ∀ low (s : State),
    s.isSoundActive low = (timerGet s.cfg.timerReadSlack low s.sound != 0x00) ∧
    (timerInRange s.sound → s.cfg.timerReadSlack = false → (s.isSoundActive low = true ↔ 1 ≤ s.sound))

/-- R174: display_get reads a cell, and is refused out of range. -/
def Obligations.DisplayGetReadsACell : Prop :=
  ∀ (s : State) (c r : Nat),
    (∀ (hc : c < 64) (hr : r < 32), s.displayGet c r = some ((s.fb[c])[r])) ∧
    (63 < c ∨ 31 < r → s.displayGet c r = none)

/-! ## Index register and memory -/

/-- R210, R211, R212: the three index instructions write I alone; no flag is written. -/
def Obligations.IndexInstructionsWriteIndex : Prop :=
  EncodedAs 0xA000 0xF000 (fun w => .setIndex (w.extractLsb' 0 12)) ∧
  EncodedAs 0xF01E 0xF0FF (fun w => .addToIndex (w.extractLsb' 8 4)) ∧
  EncodedAs 0xF029 0xF0FF (fun w => .loadGlyphAddress (w.extractLsb' 8 4)) ∧
  (∀ nnn s, ∃ t, exec (.setIndex nnn) s = .next t ∧ t.I.toNat = nnn.toNat ∧ OnlyIndex s t) ∧
  (∀ x s, ∃ t, exec (.addToIndex x) s = .next t ∧ t.I.toNat = (s.I.toNat + (s.v x).toNat) % 65536 ∧ OnlyIndex s t) ∧
  (∀ x s, ∃ t, exec (.loadGlyphAddress x) s = .next t ∧ t.I.toNat = 5 * (s.v x).toNat ∧ OnlyIndex s t)

/-- R213: LD B, Vx stores the three decimal digits at I, or faults by bounds, then by the font range. The fault's word is `encode` of the
instruction: DEDUCED from R79 (log entry 7). -/
def Obligations.StoreBcdWritesDecimalDigits : Prop :=
  EncodedAs 0xF033 0xF0FF (fun w => .storeBCD (w.extractLsb' 8 4)) ∧
  ∀ x s, Memory.wf s.cfg.font s.mem →
    (0xFFF < s.I.toNat + 2 → exec (.storeBCD x) s =
      .fault (.outOfBoundsMemoryAccess s.pc (some (encode (.storeBCD x))) (max s.I.toNat 0x1000))) ∧
    (s.I.toNat + 2 ≤ 0xFFF → s.cfg.fontWritePolicy = .fault → s.I.toNat ≤ 0x04F → exec (.storeBCD x) s =
      .fault (.fontWrite s.pc (encode (.storeBCD x)) s.I.toNat)) ∧
    (s.I.toNat + 2 ≤ 0xFFF → (s.cfg.fontWritePolicy = .write ∨ 0x04F < s.I.toNat) →
      ∃ t, exec (.storeBCD x) s = .next t ∧
        (t.byteAt s.I.toNat).toNat = (s.v x).toNat / 100 ∧
        (t.byteAt (s.I.toNat + 1)).toNat = (s.v x).toNat / 10 % 10 ∧
        (t.byteAt (s.I.toNat + 2)).toNat = (s.v x).toNat % 10 ∧
        t.I = s.I ∧ OnlyStores s.I.toNat 3 s t)

/-- R214: LD [I], Vx stores V0..Vx at I, and advances I by x + 1 exactly when REGBLOCK_INC_I is true. The fault's word is `encode` of the
instruction: DEDUCED from R79 (log entry 7). -/
def Obligations.StoreRegisterBlockWritesRegisters : Prop :=
  EncodedAs 0xF055 0xF0FF (fun w => .storeRegisterBlock (w.extractLsb' 8 4)) ∧
  ∀ x s, Memory.wf s.cfg.font s.mem →
    (0xFFF < s.I.toNat + x.toNat → exec (.storeRegisterBlock x) s =
      .fault (.outOfBoundsMemoryAccess s.pc (some (encode (.storeRegisterBlock x))) (max s.I.toNat 0x1000))) ∧
    (s.I.toNat + x.toNat ≤ 0xFFF → s.cfg.fontWritePolicy = .fault → s.I.toNat ≤ 0x04F →
      exec (.storeRegisterBlock x) s = .fault (.fontWrite s.pc (encode (.storeRegisterBlock x)) s.I.toNat)) ∧
    (s.I.toNat + x.toNat ≤ 0xFFF → (s.cfg.fontWritePolicy = .write ∨ 0x04F < s.I.toNat) →
      ∃ t, exec (.storeRegisterBlock x) s = .next t ∧
        (∀ k, k ≤ x → t.byteAt (s.I.toNat + k.toNat) = s.v k) ∧
        t.I.toNat = (if s.cfg.regblockIncI then (s.I.toNat + x.toNat + 1) % 65536 else s.I.toNat) ∧
        OnlyStores s.I.toNat (x.toNat + 1) s t)

/-- R215: LD Vx, [I] loads V0..Vx from I, leaves the registers above x, and advances I as R214 does. The fault's word is `encode` of the
instruction: DEDUCED from R79 (log entry 7). -/
def Obligations.LoadRegisterBlockReadsMemory : Prop :=
  EncodedAs 0xF065 0xF0FF (fun w => .loadRegisterBlock (w.extractLsb' 8 4)) ∧
  ∀ x s,
    (0xFFF < s.I.toNat + x.toNat → exec (.loadRegisterBlock x) s =
      .fault (.outOfBoundsMemoryAccess s.pc (some (encode (.loadRegisterBlock x))) (max s.I.toNat 0x1000))) ∧
    (s.I.toNat + x.toNat ≤ 0xFFF →
      ∃ t, exec (.loadRegisterBlock x) s = .next t ∧
        (∀ k, k ≤ x → t.v k = s.byteAt (s.I.toNat + k.toNat)) ∧ (∀ k, x < k → t.v k = s.v k) ∧
        t.I.toNat = (if s.cfg.regblockIncI then (s.I.toNat + x.toNat + 1) % 65536 else s.I.toNat) ∧
        t.pc = s.pc + 2 ∧ t.stack = s.stack ∧ SameTimers s t ∧ SameDisplay s t ∧ SameMemory s t ∧ Completes s t)

/-- R214, R215: a block load after a block store at the same I gives the stored registers back, whatever the registers
held meanwhile. -/
def Obligations.BlockLoadUndoesBlockStore : Prop :=
  ∀ x s t regs, Memory.wf s.cfg.font s.mem → exec (.storeRegisterBlock x) s = .next t →
    ∃ u, exec (.loadRegisterBlock x) { t with I := s.I, regs := regs } = .next u ∧ ∀ k, k ≤ x → u.v k = s.v k

/-- R61: a word a block store wrote at the next pc is what the very next cycle fetches. -/
def Obligations.SelfModifiedCodeIsFetched : Prop :=
  ∀ x s t (k : Nibble), Memory.wf s.cfg.font s.mem → exec (.storeRegisterBlock x) s = .next t →
    k < x → t.pc.toNat = s.I.toNat + k.toNat → t.fetch = .ok (wordOfBytes (s.v k) (s.v (k + 1)))
end

