-- ==== Sys2Proof/Laws/Codec.lean ====
section
/-! SUPPORT. The fields of an assembled word are the fields it was assembled from (30_encoding.md R71, R72), and the
two bytes of a word give the word back (20_memory.md R54). -/

namespace Sys2Proof

/-! ## Bits of the formats (R72) -/

theorem getLsbD_formNnn (h : Nibble) (nnn : Addr12) (k : Nat) :
    (formNnn h nnn).getLsbD k = if k < 12 then nnn.getLsbD k else h.getLsbD (k - 12) := by
  rw [formNnn, BitVec.getLsbD_append]

theorem getLsbD_formXkk (h x : Nibble) (kk : Byte) (k : Nat) :
    (formXkk h x kk).getLsbD k =
      if k < 8 then kk.getLsbD k else if k < 12 then x.getLsbD (k - 8) else h.getLsbD (k - 12) := by
  have h12 : (k - 8 < 4) ↔ k < 12 := by omega
  rw [formXkk, BitVec.getLsbD_append, BitVec.getLsbD_append, show k - 8 - 4 = k - 12 by omega]
  simp only [h12]

theorem getLsbD_formXyn (h x y n : Nibble) (k : Nat) :
    (formXyn h x y n).getLsbD k =
      if k < 4 then n.getLsbD k else if k < 8 then y.getLsbD (k - 4)
      else if k < 12 then x.getLsbD (k - 8) else h.getLsbD (k - 12) := by
  have h8 : (k - 4 < 4) ↔ k < 8 := by omega
  have h12 : (k - 8 < 4) ↔ k < 12 := by omega
  rw [formXyn, BitVec.getLsbD_append, BitVec.getLsbD_append, BitVec.getLsbD_append,
    show k - 4 - 4 = k - 8 by omega, show k - 8 - 4 = k - 12 by omega]
  simp only [h8, h12]

/-! ## Fields of the formats (R71) -/

@[simp] theorem highNibble_formNnn (h : Nibble) (nnn : Addr12) : highNibble (formNnn h nnn) = h := by
  ext k hk; simp [highNibble, getLsbD_formNnn, hk]

@[simp] theorem nnnField_formNnn (h : Nibble) (nnn : Addr12) : nnnField (formNnn h nnn) = nnn := by
  ext k hk; simp [nnnField, getLsbD_formNnn, hk]

@[simp] theorem highNibble_formXkk (h x : Nibble) (kk : Byte) : highNibble (formXkk h x kk) = h := by
  ext k hk; simp [highNibble, getLsbD_formXkk, hk, show ¬ 12 + k < 8 by omega]

@[simp] theorem xField_formXkk (h x : Nibble) (kk : Byte) : xField (formXkk h x kk) = x := by
  ext k hk; simp [xField, getLsbD_formXkk, hk, show 8 + k < 12 by omega]

@[simp] theorem kkField_formXkk (h x : Nibble) (kk : Byte) : kkField (formXkk h x kk) = kk := by
  ext k hk; simp [kkField, getLsbD_formXkk, hk]

@[simp] theorem highNibble_formXyn (h x y n : Nibble) : highNibble (formXyn h x y n) = h := by
  ext k hk; simp [highNibble, getLsbD_formXyn, hk, show ¬ 12 + k < 8 by omega, show ¬ 12 + k < 4 by omega]

@[simp] theorem xField_formXyn (h x y n : Nibble) : xField (formXyn h x y n) = x := by
  ext k hk; simp [xField, getLsbD_formXyn, hk, show 8 + k < 12 by omega, show ¬ 8 + k < 4 by omega]

@[simp] theorem yField_formXyn (h x y n : Nibble) : yField (formXyn h x y n) = y := by
  ext k hk; simp [yField, getLsbD_formXyn, hk, show 4 + k < 8 by omega]

@[simp] theorem nField_formXyn (h x y n : Nibble) : nField (formXyn h x y n) = n := by
  ext k hk; simp [nField, getLsbD_formXyn, hk]

/-! ## A word is its fields -/

theorem formNnn_fields (w : Word) : formNnn (highNibble w) (nnnField w) = w := by
  refine BitVec.eq_of_getLsbD_eq fun k hk => ?_
  simp only [getLsbD_formNnn, highNibble, nnnField, BitVec.getLsbD_extractLsb', Nat.zero_add]
  by_cases h : k < 12
  · simp [h]
  · simp [h, show k - 12 < 4 by omega, show 12 + (k - 12) = k by omega]

theorem formXkk_fields (w : Word) : formXkk (highNibble w) (xField w) (kkField w) = w := by
  refine BitVec.eq_of_getLsbD_eq fun k hk => ?_
  simp only [getLsbD_formXkk, highNibble, xField, kkField, BitVec.getLsbD_extractLsb', Nat.zero_add]
  by_cases h : k < 8
  · simp [h]
  · by_cases h' : k < 12
    · simp [h, h', show k - 8 < 4 by omega, show 8 + (k - 8) = k by omega]
    · simp [h, h', show k - 12 < 4 by omega, show 12 + (k - 12) = k by omega]

theorem formXyn_fields (w : Word) : formXyn (highNibble w) (xField w) (yField w) (nField w) = w := by
  refine BitVec.eq_of_getLsbD_eq fun k hk => ?_
  simp only [getLsbD_formXyn, highNibble, xField, yField, nField, BitVec.getLsbD_extractLsb', Nat.zero_add]
  by_cases h4 : k < 4
  · simp [h4]
  · by_cases h8 : k < 8
    · simp [h4, h8, show k - 4 < 4 by omega, show 4 + (k - 4) = k by omega]
    · by_cases h12 : k < 12
      · simp [h4, h8, h12, show k - 8 < 4 by omega, show 8 + (k - 8) = k by omega]
      · simp [h4, h8, h12, show k - 12 < 4 by omega, show 12 + (k - 12) = k by omega]

@[simp] theorem wordOfBytes_bytes (w : Word) : wordOfBytes (highByte w) (lowByte w) = w := by
  refine BitVec.eq_of_getLsbD_eq fun k hk => ?_
  rw [wordOfBytes, BitVec.getLsbD_append]
  simp only [highByte, lowByte, BitVec.getLsbD_extractLsb', Nat.zero_add]
  by_cases h : k < 8
  · simp [h]
  · simp [h, show k - 8 < 8 by omega, show 8 + (k - 8) = k by omega]

/-! ## Masks of the opcode table (R74) -/

theorem formNnn_and_F000 (h : Nibble) (nnn : Addr12) : formNnn h nnn &&& 0xF000#16 = formNnn h 0x000 := by
  refine BitVec.eq_of_getLsbD_eq fun k hk => ?_
  simp only [BitVec.getLsbD_and, getLsbD_formNnn]
  interval_cases k <;> simp

theorem formXkk_and_F000 (h x : Nibble) (kk : Byte) : formXkk h x kk &&& 0xF000#16 = formXkk h 0x0 0x00 := by
  refine BitVec.eq_of_getLsbD_eq fun k hk => ?_
  simp only [BitVec.getLsbD_and, getLsbD_formXkk]
  interval_cases k <;> simp

theorem formXkk_and_F0FF (h x : Nibble) (kk : Byte) : formXkk h x kk &&& 0xF0FF#16 = formXkk h 0x0 kk := by
  refine BitVec.eq_of_getLsbD_eq fun k hk => ?_
  simp only [BitVec.getLsbD_and, getLsbD_formXkk]
  interval_cases k <;> simp

theorem formXyn_and_F000 (h x y n : Nibble) : formXyn h x y n &&& 0xF000#16 = formXyn h 0x0 0x0 0x0 := by
  refine BitVec.eq_of_getLsbD_eq fun k hk => ?_
  simp only [BitVec.getLsbD_and, getLsbD_formXyn]
  interval_cases k <;> simp

theorem formXyn_and_F00F (h x y n : Nibble) : formXyn h x y n &&& 0xF00F#16 = formXyn h 0x0 0x0 n := by
  refine BitVec.eq_of_getLsbD_eq fun k hk => ?_
  simp only [BitVec.getLsbD_and, getLsbD_formXyn]
  interval_cases k <;> simp

/-! ## The fields a mask fixes -/

/-- A mask that keeps the high nibble fixes it. -/
theorem highNibble_of_and {w p m : Word} (h : w &&& m = p) (hm : highNibble m = 0xF) : highNibble w = highNibble p := by
  have h' := congrArg highNibble h
  simp only [highNibble] at h' hm ⊢
  rw [BitVec.extractLsb'_and, hm, show (0xF : Nibble) = BitVec.allOnes 4 from rfl, BitVec.and_allOnes] at h'
  exact h'

/-- A mask that keeps the low nibble fixes it. -/
theorem nField_of_and {w p m : Word} (h : w &&& m = p) (hm : nField m = 0xF) : nField w = nField p := by
  have h' := congrArg nField h
  simp only [nField] at h' hm ⊢
  rw [BitVec.extractLsb'_and, hm, show (0xF : Nibble) = BitVec.allOnes 4 from rfl, BitVec.and_allOnes] at h'
  exact h'

/-- A mask that keeps the low byte fixes it. -/
theorem kkField_of_and {w p m : Word} (h : w &&& m = p) (hm : kkField m = 0xFF) : kkField w = kkField p := by
  have h' := congrArg kkField h
  simp only [kkField] at h' hm ⊢
  rw [BitVec.extractLsb'_and, hm, show (0xFF : Byte) = BitVec.allOnes 8 from rfl, BitVec.and_allOnes] at h'
  exact h'

end Sys2Proof
end

