-- ==== Sys2Proof/Laws/State.lean ====
section
/-! SUPPORT. One lemma per field per update of State, each true by rfl, so that no proof unfolds a record update. -/

namespace Sys2Proof.Machine

variable (s : State)

/-! ## State.setV -/

@[simp] theorem State.setV_mem (r : Nibble) (b : Byte) : (s.setV r b).mem = s.mem := rfl
@[simp] theorem State.setV_regs (r : Nibble) (b : Byte) : (s.setV r b).regs = Regs.write s.regs r b := rfl
@[simp] theorem State.setV_I (r : Nibble) (b : Byte) : (s.setV r b).I = s.I := rfl
@[simp] theorem State.setV_pc (r : Nibble) (b : Byte) : (s.setV r b).pc = s.pc := rfl
@[simp] theorem State.setV_stack (r : Nibble) (b : Byte) : (s.setV r b).stack = s.stack := rfl
@[simp] theorem State.setV_delay (r : Nibble) (b : Byte) : (s.setV r b).delay = s.delay := rfl
@[simp] theorem State.setV_sound (r : Nibble) (b : Byte) : (s.setV r b).sound = s.sound := rfl
@[simp] theorem State.setV_fb (r : Nibble) (b : Byte) : (s.setV r b).fb = s.fb := rfl
@[simp] theorem State.setV_cfg (r : Nibble) (b : Byte) : (s.setV r b).cfg = s.cfg := rfl
@[simp] theorem State.setV_inputs (r : Nibble) (b : Byte) : (s.setV r b).inputs = s.inputs := rfl
@[simp] theorem State.setV_turn (r : Nibble) (b : Byte) : (s.setV r b).turn = s.turn := rfl
@[simp] theorem State.setV_answer (r : Nibble) (b : Byte) : (s.setV r b).answer = s.answer := rfl

/-! ## State.loadV -/

@[simp] theorem State.loadV_mem (bs : List Byte) : (s.loadV bs).mem = s.mem := rfl
@[simp] theorem State.loadV_regs (bs : List Byte) : (s.loadV bs).regs = Regs.load s.regs 0 bs := rfl
@[simp] theorem State.loadV_I (bs : List Byte) : (s.loadV bs).I = s.I := rfl
@[simp] theorem State.loadV_pc (bs : List Byte) : (s.loadV bs).pc = s.pc := rfl
@[simp] theorem State.loadV_stack (bs : List Byte) : (s.loadV bs).stack = s.stack := rfl
@[simp] theorem State.loadV_delay (bs : List Byte) : (s.loadV bs).delay = s.delay := rfl
@[simp] theorem State.loadV_sound (bs : List Byte) : (s.loadV bs).sound = s.sound := rfl
@[simp] theorem State.loadV_fb (bs : List Byte) : (s.loadV bs).fb = s.fb := rfl
@[simp] theorem State.loadV_cfg (bs : List Byte) : (s.loadV bs).cfg = s.cfg := rfl
@[simp] theorem State.loadV_inputs (bs : List Byte) : (s.loadV bs).inputs = s.inputs := rfl
@[simp] theorem State.loadV_turn (bs : List Byte) : (s.loadV bs).turn = s.turn := rfl
@[simp] theorem State.loadV_answer (bs : List Byte) : (s.loadV bs).answer = s.answer := rfl

/-! ## State.setFlag -/

@[simp] theorem State.setFlag_mem (b : Bool) : (s.setFlag b).mem = s.mem := rfl
@[simp] theorem State.setFlag_regs (b : Bool) : (s.setFlag b).regs = Regs.write s.regs vf (boolToU8 b) := rfl
@[simp] theorem State.setFlag_I (b : Bool) : (s.setFlag b).I = s.I := rfl
@[simp] theorem State.setFlag_pc (b : Bool) : (s.setFlag b).pc = s.pc := rfl
@[simp] theorem State.setFlag_stack (b : Bool) : (s.setFlag b).stack = s.stack := rfl
@[simp] theorem State.setFlag_delay (b : Bool) : (s.setFlag b).delay = s.delay := rfl
@[simp] theorem State.setFlag_sound (b : Bool) : (s.setFlag b).sound = s.sound := rfl
@[simp] theorem State.setFlag_fb (b : Bool) : (s.setFlag b).fb = s.fb := rfl
@[simp] theorem State.setFlag_cfg (b : Bool) : (s.setFlag b).cfg = s.cfg := rfl
@[simp] theorem State.setFlag_inputs (b : Bool) : (s.setFlag b).inputs = s.inputs := rfl
@[simp] theorem State.setFlag_turn (b : Bool) : (s.setFlag b).turn = s.turn := rfl
@[simp] theorem State.setFlag_answer (b : Bool) : (s.setFlag b).answer = s.answer := rfl

/-! ## State.setResultAndFlag -/

@[simp] theorem State.setResultAndFlag_mem (x : Nibble) (r : Byte) (b : Bool) : (s.setResultAndFlag x r b).mem = s.mem := rfl
@[simp] theorem State.setResultAndFlag_regs (x : Nibble) (r : Byte) (b : Bool) : (s.setResultAndFlag x r b).regs = Regs.write (Regs.write s.regs x r) vf (boolToU8 b) := rfl
@[simp] theorem State.setResultAndFlag_I (x : Nibble) (r : Byte) (b : Bool) : (s.setResultAndFlag x r b).I = s.I := rfl
@[simp] theorem State.setResultAndFlag_pc (x : Nibble) (r : Byte) (b : Bool) : (s.setResultAndFlag x r b).pc = s.pc := rfl
@[simp] theorem State.setResultAndFlag_stack (x : Nibble) (r : Byte) (b : Bool) : (s.setResultAndFlag x r b).stack = s.stack := rfl
@[simp] theorem State.setResultAndFlag_delay (x : Nibble) (r : Byte) (b : Bool) : (s.setResultAndFlag x r b).delay = s.delay := rfl
@[simp] theorem State.setResultAndFlag_sound (x : Nibble) (r : Byte) (b : Bool) : (s.setResultAndFlag x r b).sound = s.sound := rfl
@[simp] theorem State.setResultAndFlag_fb (x : Nibble) (r : Byte) (b : Bool) : (s.setResultAndFlag x r b).fb = s.fb := rfl
@[simp] theorem State.setResultAndFlag_cfg (x : Nibble) (r : Byte) (b : Bool) : (s.setResultAndFlag x r b).cfg = s.cfg := rfl
@[simp] theorem State.setResultAndFlag_inputs (x : Nibble) (r : Byte) (b : Bool) : (s.setResultAndFlag x r b).inputs = s.inputs := rfl
@[simp] theorem State.setResultAndFlag_turn (x : Nibble) (r : Byte) (b : Bool) : (s.setResultAndFlag x r b).turn = s.turn := rfl
@[simp] theorem State.setResultAndFlag_answer (x : Nibble) (r : Byte) (b : Bool) : (s.setResultAndFlag x r b).answer = s.answer := rfl

/-! ## State.setI -/

@[simp] theorem State.setI_mem (w : Word) : (s.setI w).mem = s.mem := rfl
@[simp] theorem State.setI_regs (w : Word) : (s.setI w).regs = s.regs := rfl
@[simp] theorem State.setI_I (w : Word) : (s.setI w).I = w := rfl
@[simp] theorem State.setI_pc (w : Word) : (s.setI w).pc = s.pc := rfl
@[simp] theorem State.setI_stack (w : Word) : (s.setI w).stack = s.stack := rfl
@[simp] theorem State.setI_delay (w : Word) : (s.setI w).delay = s.delay := rfl
@[simp] theorem State.setI_sound (w : Word) : (s.setI w).sound = s.sound := rfl
@[simp] theorem State.setI_fb (w : Word) : (s.setI w).fb = s.fb := rfl
@[simp] theorem State.setI_cfg (w : Word) : (s.setI w).cfg = s.cfg := rfl
@[simp] theorem State.setI_inputs (w : Word) : (s.setI w).inputs = s.inputs := rfl
@[simp] theorem State.setI_turn (w : Word) : (s.setI w).turn = s.turn := rfl
@[simp] theorem State.setI_answer (w : Word) : (s.setI w).answer = s.answer := rfl

/-! ## State.storeBytes -/

@[simp] theorem State.storeBytes_mem (a : Nat) (bs : List Byte) : (s.storeBytes a bs).mem = Memory.writeBytes s.cfg.font s.mem a bs := rfl
@[simp] theorem State.storeBytes_regs (a : Nat) (bs : List Byte) : (s.storeBytes a bs).regs = s.regs := rfl
@[simp] theorem State.storeBytes_I (a : Nat) (bs : List Byte) : (s.storeBytes a bs).I = s.I := rfl
@[simp] theorem State.storeBytes_pc (a : Nat) (bs : List Byte) : (s.storeBytes a bs).pc = s.pc := rfl
@[simp] theorem State.storeBytes_stack (a : Nat) (bs : List Byte) : (s.storeBytes a bs).stack = s.stack := rfl
@[simp] theorem State.storeBytes_delay (a : Nat) (bs : List Byte) : (s.storeBytes a bs).delay = s.delay := rfl
@[simp] theorem State.storeBytes_sound (a : Nat) (bs : List Byte) : (s.storeBytes a bs).sound = s.sound := rfl
@[simp] theorem State.storeBytes_fb (a : Nat) (bs : List Byte) : (s.storeBytes a bs).fb = s.fb := rfl
@[simp] theorem State.storeBytes_cfg (a : Nat) (bs : List Byte) : (s.storeBytes a bs).cfg = s.cfg := rfl
@[simp] theorem State.storeBytes_inputs (a : Nat) (bs : List Byte) : (s.storeBytes a bs).inputs = s.inputs := rfl
@[simp] theorem State.storeBytes_turn (a : Nat) (bs : List Byte) : (s.storeBytes a bs).turn = s.turn := rfl
@[simp] theorem State.storeBytes_answer (a : Nat) (bs : List Byte) : (s.storeBytes a bs).answer = s.answer := rfl

/-! ## State.arriveAt -/

@[simp] theorem State.arriveAt_mem (w : Word) : (s.arriveAt w).mem = s.mem := rfl
@[simp] theorem State.arriveAt_regs (w : Word) : (s.arriveAt w).regs = s.regs := rfl
@[simp] theorem State.arriveAt_I (w : Word) : (s.arriveAt w).I = s.I := rfl
@[simp] theorem State.arriveAt_pc (w : Word) : (s.arriveAt w).pc = w := rfl
@[simp] theorem State.arriveAt_stack (w : Word) : (s.arriveAt w).stack = s.stack := rfl
@[simp] theorem State.arriveAt_delay (w : Word) : (s.arriveAt w).delay = s.delay := rfl
@[simp] theorem State.arriveAt_sound (w : Word) : (s.arriveAt w).sound = s.sound := rfl
@[simp] theorem State.arriveAt_fb (w : Word) : (s.arriveAt w).fb = s.fb := rfl
@[simp] theorem State.arriveAt_cfg (w : Word) : (s.arriveAt w).cfg = s.cfg := rfl
@[simp] theorem State.arriveAt_inputs (w : Word) : (s.arriveAt w).inputs = s.inputs := rfl
@[simp] theorem State.arriveAt_turn (w : Word) : (s.arriveAt w).turn = s.turn := rfl
@[simp] theorem State.arriveAt_answer (w : Word) : (s.arriveAt w).answer = .ok := rfl

/-! ## State.hold -/

@[simp] theorem State.hold_mem : (s.hold).mem = s.mem := rfl
@[simp] theorem State.hold_regs : (s.hold).regs = s.regs := rfl
@[simp] theorem State.hold_I : (s.hold).I = s.I := rfl
@[simp] theorem State.hold_pc : (s.hold).pc = s.pc := rfl
@[simp] theorem State.hold_stack : (s.hold).stack = s.stack := rfl
@[simp] theorem State.hold_delay : (s.hold).delay = s.delay := rfl
@[simp] theorem State.hold_sound : (s.hold).sound = s.sound := rfl
@[simp] theorem State.hold_fb : (s.hold).fb = s.fb := rfl
@[simp] theorem State.hold_cfg : (s.hold).cfg = s.cfg := rfl
@[simp] theorem State.hold_inputs : (s.hold).inputs = s.inputs := rfl
@[simp] theorem State.hold_turn : (s.hold).turn = s.turn := rfl
@[simp] theorem State.hold_answer : (s.hold).answer = .awaitingKey := rfl

/-! ## State.setDelay -/

@[simp] theorem State.setDelay_mem (t : Byte) : (s.setDelay t).mem = s.mem := rfl
@[simp] theorem State.setDelay_regs (t : Byte) : (s.setDelay t).regs = s.regs := rfl
@[simp] theorem State.setDelay_I (t : Byte) : (s.setDelay t).I = s.I := rfl
@[simp] theorem State.setDelay_pc (t : Byte) : (s.setDelay t).pc = s.pc := rfl
@[simp] theorem State.setDelay_stack (t : Byte) : (s.setDelay t).stack = s.stack := rfl
@[simp] theorem State.setDelay_delay (t : Byte) : (s.setDelay t).delay = timerSet t := rfl
@[simp] theorem State.setDelay_sound (t : Byte) : (s.setDelay t).sound = s.sound := rfl
@[simp] theorem State.setDelay_fb (t : Byte) : (s.setDelay t).fb = s.fb := rfl
@[simp] theorem State.setDelay_cfg (t : Byte) : (s.setDelay t).cfg = s.cfg := rfl
@[simp] theorem State.setDelay_inputs (t : Byte) : (s.setDelay t).inputs = s.inputs := rfl
@[simp] theorem State.setDelay_turn (t : Byte) : (s.setDelay t).turn = s.turn := rfl
@[simp] theorem State.setDelay_answer (t : Byte) : (s.setDelay t).answer = s.answer := rfl

/-! ## State.setSound -/

@[simp] theorem State.setSound_mem (t : Byte) : (s.setSound t).mem = s.mem := rfl
@[simp] theorem State.setSound_regs (t : Byte) : (s.setSound t).regs = s.regs := rfl
@[simp] theorem State.setSound_I (t : Byte) : (s.setSound t).I = s.I := rfl
@[simp] theorem State.setSound_pc (t : Byte) : (s.setSound t).pc = s.pc := rfl
@[simp] theorem State.setSound_stack (t : Byte) : (s.setSound t).stack = s.stack := rfl
@[simp] theorem State.setSound_delay (t : Byte) : (s.setSound t).delay = s.delay := rfl
@[simp] theorem State.setSound_sound (t : Byte) : (s.setSound t).sound = timerSet t := rfl
@[simp] theorem State.setSound_fb (t : Byte) : (s.setSound t).fb = s.fb := rfl
@[simp] theorem State.setSound_cfg (t : Byte) : (s.setSound t).cfg = s.cfg := rfl
@[simp] theorem State.setSound_inputs (t : Byte) : (s.setSound t).inputs = s.inputs := rfl
@[simp] theorem State.setSound_turn (t : Byte) : (s.setSound t).turn = s.turn := rfl
@[simp] theorem State.setSound_answer (t : Byte) : (s.setSound t).answer = s.answer := rfl

/-! ## State.setFb -/

@[simp] theorem State.setFb_mem (fb : Framebuffer) : (s.setFb fb).mem = s.mem := rfl
@[simp] theorem State.setFb_regs (fb : Framebuffer) : (s.setFb fb).regs = s.regs := rfl
@[simp] theorem State.setFb_I (fb : Framebuffer) : (s.setFb fb).I = s.I := rfl
@[simp] theorem State.setFb_pc (fb : Framebuffer) : (s.setFb fb).pc = s.pc := rfl
@[simp] theorem State.setFb_stack (fb : Framebuffer) : (s.setFb fb).stack = s.stack := rfl
@[simp] theorem State.setFb_delay (fb : Framebuffer) : (s.setFb fb).delay = s.delay := rfl
@[simp] theorem State.setFb_sound (fb : Framebuffer) : (s.setFb fb).sound = s.sound := rfl
@[simp] theorem State.setFb_fb (fb : Framebuffer) : (s.setFb fb).fb = fb := rfl
@[simp] theorem State.setFb_cfg (fb : Framebuffer) : (s.setFb fb).cfg = s.cfg := rfl
@[simp] theorem State.setFb_inputs (fb : Framebuffer) : (s.setFb fb).inputs = s.inputs := rfl
@[simp] theorem State.setFb_turn (fb : Framebuffer) : (s.setFb fb).turn = s.turn := rfl
@[simp] theorem State.setFb_answer (fb : Framebuffer) : (s.setFb fb).answer = s.answer := rfl

/-! ## State.setStack -/

@[simp] theorem State.setStack_mem (l : List Word) : (s.setStack l).mem = s.mem := rfl
@[simp] theorem State.setStack_regs (l : List Word) : (s.setStack l).regs = s.regs := rfl
@[simp] theorem State.setStack_I (l : List Word) : (s.setStack l).I = s.I := rfl
@[simp] theorem State.setStack_pc (l : List Word) : (s.setStack l).pc = s.pc := rfl
@[simp] theorem State.setStack_stack (l : List Word) : (s.setStack l).stack = l := rfl
@[simp] theorem State.setStack_delay (l : List Word) : (s.setStack l).delay = s.delay := rfl
@[simp] theorem State.setStack_sound (l : List Word) : (s.setStack l).sound = s.sound := rfl
@[simp] theorem State.setStack_fb (l : List Word) : (s.setStack l).fb = s.fb := rfl
@[simp] theorem State.setStack_cfg (l : List Word) : (s.setStack l).cfg = s.cfg := rfl
@[simp] theorem State.setStack_inputs (l : List Word) : (s.setStack l).inputs = s.inputs := rfl
@[simp] theorem State.setStack_turn (l : List Word) : (s.setStack l).turn = s.turn := rfl
@[simp] theorem State.setStack_answer (l : List Word) : (s.setStack l).answer = s.answer := rfl

/-! ## State.hostTurn -/

@[simp] theorem State.hostTurn_mem : (s.hostTurn).mem = s.mem := rfl
@[simp] theorem State.hostTurn_regs : (s.hostTurn).regs = s.regs := rfl
@[simp] theorem State.hostTurn_I : (s.hostTurn).I = s.I := rfl
@[simp] theorem State.hostTurn_pc : (s.hostTurn).pc = s.pc := rfl
@[simp] theorem State.hostTurn_stack : (s.hostTurn).stack = s.stack := rfl
@[simp] theorem State.hostTurn_delay : (s.hostTurn).delay = timerOverTurn s.env.elapsed s.delay := rfl
@[simp] theorem State.hostTurn_sound : (s.hostTurn).sound = timerOverTurn s.env.elapsed s.sound := rfl
@[simp] theorem State.hostTurn_fb : (s.hostTurn).fb = s.fb := rfl
@[simp] theorem State.hostTurn_cfg : (s.hostTurn).cfg = s.cfg := rfl
@[simp] theorem State.hostTurn_inputs : (s.hostTurn).inputs = s.inputs.tail := rfl
@[simp] theorem State.hostTurn_turn : (s.hostTurn).turn = s.turn + 1 := rfl
@[simp] theorem State.hostTurn_answer : (s.hostTurn).answer = s.answer := rfl

end Sys2Proof.Machine
end

