-- ==== Sys2Proof/Laws/Memory.lean ====
section
/-! SUPPORT. The laws of memory: what a write does to every read, and that every memory operation keeps the
canonical form. -/

namespace Sys2Proof.Machine

/-! ## One byte -/

/-- An address below every listed one is unlisted. -/
theorem Memory.read_of_lt (font : Font) (m : Memory) (a : Nat) (h : ∀ c ∈ m, a < c.1) :
    Memory.read font m a = unlisted font a := by
  induction m with
  | nil => rfl
  | cons c rest ih =>
    have hc : a < c.1 := h c (by simp)
    simp only [Memory.read]
    rw [if_neg (by omega), ih fun d hd => h d (by simp [hd])]

/-- A write gives its byte at its address and leaves every other address as it was (R57). -/
theorem Memory.read_write (font : Font) (m : Memory) (a : Nat) (v : Byte) (b : Nat) (h : Memory.wf font m) :
    Memory.read font (Memory.write font m a v) b = if b = a then v else Memory.read font m b := by
  induction m with
  | nil =>
    by_cases hv : v = unlisted font a <;> by_cases hb : b = a <;> simp [Memory.write, Memory.read, hv, hb]
  | cons c rest ih =>
    obtain ⟨c, u⟩ := c
    have hrest : Memory.wf font rest := ⟨(List.pairwise_cons.1 h.1).2, fun d hd => h.2 d (by simp [hd])⟩
    have hlow : ∀ d ∈ rest, c < d.1 := (List.pairwise_cons.1 h.1).1
    simp only [Memory.write]
    split
    · rename_i hac
      have hdown : Memory.read font ((c, u) :: rest) a = unlisted font a := by
        refine Memory.read_of_lt font _ a fun d hd => ?_
        rcases List.mem_cons.1 hd with rfl | hd
        · exact hac
        · exact Nat.lt_trans hac (hlow d hd)
      split
      · rename_i hv
        by_cases hb : b = a
        · rw [if_pos hb, hb, hdown, hv]
        · rw [if_neg hb]
      · by_cases hb : b = a <;> simp [Memory.read, hb]
    · split
      · rename_i hac
        subst hac
        have hdown : Memory.read font rest a = unlisted font a := Memory.read_of_lt font _ a hlow
        split
        · rename_i hv
          by_cases hb : b = a
          · rw [if_pos hb, hb, hdown, hv]
          · simp [Memory.read, hb]
        · by_cases hb : b = a <;> simp [Memory.read, hb]
      · simp only [Memory.read]
        by_cases hbc : b = c
        · rw [if_pos hbc, if_pos hbc, if_neg (by omega)]
        · rw [if_neg hbc, if_neg hbc, ih hrest]

/-- Every address a write lists was listed before or is the written one. -/
theorem Memory.mem_write (font : Font) (m : Memory) (a : Nat) (v : Byte) (c : Host.Cell)
    (h : c ∈ Memory.write font m a v) : c ∈ m ∨ (c = (a, v) ∧ v ≠ unlisted font a) := by
  induction m with
  | nil =>
    by_cases hv : v = unlisted font a <;> simp_all [Memory.write]
  | cons d rest ih =>
    obtain ⟨d, u⟩ := d
    simp only [Memory.write] at h
    split at h
    · split at h
      · exact .inl h
      · rename_i hv
        rcases List.mem_cons.1 h with rfl | h
        · exact .inr ⟨rfl, hv⟩
        · exact .inl h
    · split at h
      · split at h
        · exact .inl (by simp [h])
        · rename_i hv
          rcases List.mem_cons.1 h with rfl | h
          · exact .inr ⟨rfl, hv⟩
          · exact .inl (by simp [h])
      · rcases List.mem_cons.1 h with rfl | h
        · exact .inl (by simp)
        · exact (ih h).imp (fun h => by simp [h]) id

/-- A write inside the address space keeps the canonical form. -/
theorem Memory.wf_write (font : Font) (m : Memory) (a : Nat) (v : Byte) (h : Memory.wf font m) (ha : a < memSize) :
    Memory.wf font (Memory.write font m a v) := by
  refine ⟨?_, fun c hc => ?_⟩
  · induction m with
    | nil => by_cases hv : v = unlisted font a <;> simp [Memory.write, hv]
    | cons d rest ih =>
      obtain ⟨d, u⟩ := d
      have hlow : ∀ e ∈ rest, d < e.1 := (List.pairwise_cons.1 h.1).1
      have hpw := (List.pairwise_cons.1 h.1).2
      have hrest : Memory.wf font rest := ⟨hpw, fun e he => h.2 e (by simp [he])⟩
      simp only [Memory.write]
      split
      · rename_i had
        split
        · exact h.1
        · refine List.pairwise_cons.2 ⟨fun e he => ?_, h.1⟩
          rcases List.mem_cons.1 he with rfl | he
          · exact had
          · exact Nat.lt_trans had (hlow e he)
      · split
        · rename_i had
          subst had
          split
          · exact hpw
          · exact List.pairwise_cons.2 ⟨hlow, hpw⟩
        · refine List.pairwise_cons.2 ⟨fun e he => ?_, ih hrest⟩
          rcases Memory.mem_write font rest a v e he with he | ⟨rfl, -⟩
          · exact hlow e he
          · change d < a
            omega
  · rcases Memory.mem_write font m a v c hc with hc | ⟨rfl, hv⟩
    · exact h.2 c hc
    · exact ⟨ha, hv⟩

/-! ## A run of bytes -/

/-- A store inside the address space keeps the canonical form. -/
theorem Memory.wf_writeBytes (font : Font) (bs : List Byte) (m : Memory) (a : Nat) (h : Memory.wf font m)
    (ha : a + bs.length ≤ memSize) : Memory.wf font (Memory.writeBytes font m a bs) := by
  induction bs generalizing m a with
  | nil => exact h
  | cons b bs ih =>
    simp only [List.length_cons] at ha
    exact ih _ _ (Memory.wf_write font m a b h (by omega)) (by omega)

/-- What every address reads after a store: the stored byte inside it, what it read before outside it. -/
theorem Memory.read_writeBytes (font : Font) (bs : List Byte) (m : Memory) (a : Nat) (b : Nat) (h : Memory.wf font m)
    (ha : a + bs.length ≤ memSize) :
    Memory.read font (Memory.writeBytes font m a bs) b =
      if a ≤ b ∧ b < a + bs.length then bs[b - a]?.getD 0 else Memory.read font m b := by
  induction bs generalizing m a with
  | nil => rw [if_neg (by simp)]; rfl
  | cons v bs ih =>
    simp only [List.length_cons] at ha ⊢
    simp only [Memory.writeBytes]
    rw [ih _ _ (Memory.wf_write font m a v h (by omega)) (by omega), Memory.read_write font m a v b h]
    by_cases hb : b = a
    · subst hb
      simp
    · by_cases hin : a + 1 ≤ b ∧ b < a + 1 + bs.length
      · obtain ⟨k, rfl⟩ : ∃ k, b = a + 1 + k := ⟨b - (a + 1), by omega⟩
        rw [if_pos hin, if_pos (by omega), show a + 1 + k - (a + 1) = k by omega,
          show a + 1 + k - a = k + 1 by omega, List.getElem?_cons_succ]
      · rw [if_neg hin, if_neg hb, if_neg (by omega)]

/-- The empty memory, which a construction leaves, is in canonical form. -/
theorem Memory.wf_nil (font : Font) : Memory.wf font [] := by simp [Memory.wf]

/-! ## Bytes of a state -/

/-- The bytes of a memory operand, one by one. -/
theorem State.getElem?_bytesAt (s : State) (n a k : Nat) :
    (s.bytesAt a n)[k]? = if k < n then some (s.byteAt (a + k)) else none := by
  induction n generalizing a k with
  | zero => simp [State.bytesAt]
  | succ n ih =>
    cases k with
    | zero => simp [State.bytesAt]
    | succ k =>
      simp only [State.bytesAt, List.getElem?_cons_succ, ih]
      by_cases h : k < n
      · rw [if_pos h, if_pos (by omega), show a + 1 + k = a + (k + 1) by omega]
      · rw [if_neg h, if_neg (by omega)]

/-- A memory operand has as many bytes as it says. -/
@[simp] theorem State.length_bytesAt (s : State) (a n : Nat) : (s.bytesAt a n).length = n := by
  induction n generalizing a with
  | zero => rfl
  | succ n ih => simp [State.bytesAt, ih]

/-- What every address reads after a store (`Memory.read_writeBytes`, on a state). -/
theorem State.byteAt_storeBytes (s : State) (a : Nat) (bs : List Byte) (b : Nat) (h : Memory.wf s.cfg.font s.mem)
    (ha : a + bs.length ≤ memSize) :
    (s.storeBytes a bs).byteAt b = if a ≤ b ∧ b < a + bs.length then bs[b - a]?.getD 0 else s.byteAt b :=
  Memory.read_writeBytes s.cfg.font bs s.mem a b h ha

end Sys2Proof.Machine
end

