-- ==== Sys2Proof/Laws/Ops.lean ====
section
/-! SUPPORT. For each shared operation, one lemma that says everything it can do. -/

namespace Sys2Proof.Machine

/-! ## Registers -/

/-- A register write changes its register and no other (R21, R22). -/
theorem State.v_setV (s : State) (r : Nibble) (b : Byte) (q : Nibble) :
    (s.setV r b).v q = if q = r then b else s.v q := by
  simp only [State.v, State.setV, Regs.write, Vector.getElem_set, BitVec.toNat_inj, eq_comm (a := r)]

/-- A flag write changes VF and no other register (R23). -/
theorem State.v_setFlag (s : State) (b : Bool) (q : Nibble) :
    (s.setFlag b).v q = if q = vf then boolToU8 b else s.v q :=
  State.v_setV s vf (boolToU8 b) q

/-- The flag overwrites the result when the destination is VF (R23). -/
theorem State.v_setResultAndFlag (s : State) (x : Nibble) (r : Byte) (b : Bool) (q : Nibble) :
    (s.setResultAndFlag x r b).v q = if q = vf then boolToU8 b else if q = x then r else s.v q := by
  simp only [State.setResultAndFlag, State.v_setFlag, State.v_setV]

/-- Registers read the same in states with the same register file. -/
theorem State.v_congr {s t : State} (h : t.regs = s.regs) (q : Nibble) : t.v q = s.v q := by
  simp only [State.v, h]

/-- Bytes read the same in states with the same memory and font. -/
theorem State.byteAt_congr {s t : State} (hm : t.mem = s.mem) (hc : t.cfg = s.cfg) (a : Nat) :
    t.byteAt a = s.byteAt a := by
  simp only [State.byteAt, hm, hc]

/-- A block load writes the registers it has a byte for and no other (R215). -/
theorem Regs.getElem_load (bs : List Byte) (regs : Regs) (k j : Nat) (hj : j < 16) :
    (Regs.load regs k bs)[j] = if k ≤ j then bs[j - k]?.getD regs[j] else regs[j] := by
  induction bs generalizing regs k with
  | nil => simp [Regs.load]
  | cons b bs ih =>
    simp only [Regs.load]
    split
    · rename_i hk
      rw [ih, Vector.getElem_set]
      by_cases hkj : k = j
      · subst hkj
        simp
      · by_cases hle : k + 1 ≤ j
        · obtain ⟨d, rfl⟩ : ∃ d, j = k + 1 + d := ⟨j - (k + 1), by omega⟩
          rw [if_pos hle, if_neg hkj, if_pos (by omega), show k + 1 + d - (k + 1) = d by omega,
            show k + 1 + d - k = d + 1 by omega, List.getElem?_cons_succ]
        · rw [if_neg hle, if_neg hkj, if_neg (by omega)]
    · rw [if_neg (by omega)]

/-! ## Bounds and stores -/

/-- An access set has no out-of-range address exactly when it ends inside the address space (R56). -/
theorem outOfRange_eq_none {base len : Nat} : outOfRange base len = none ↔ len = 0 ∨ base + len ≤ memSize := by
  unfold outOfRange
  split <;> simp_all

/-- The lowest out-of-range address of an access set that has one (R56). -/
theorem outOfRange_eq_some {base len a : Nat} :
    outOfRange base len = some a ↔ (len ≠ 0 ∧ memSize < base + len) ∧ a = max base memSize := by
  unfold outOfRange
  split
  · simp; omega
  · simp; omega

/-- When a data read faults, and with what (R56, R234). -/
theorem State.readFault?_eq (s : State) (i : Instr) (base len : Nat) :
    s.readFault? i base len =
      if len = 0 ∨ base + len ≤ memSize then none
      else some (.outOfBoundsMemoryAccess s.pc (some (encode i)) (max base memSize)) := by
  unfold State.readFault? outOfRange
  split <;> rfl

/-- When a store faults, and with what: bounds before the font range (R53, R237, R239). -/
theorem State.writeFault?_eq (s : State) (i : Instr) (base len : Nat) :
    s.writeFault? i base len =
      if ¬ (len = 0 ∨ base + len ≤ memSize) then
        some (.outOfBoundsMemoryAccess s.pc (some (encode i)) (max base memSize))
      else if s.cfg.fontWritePolicy = .fault ∧ base < fontEnd then some (.fontWrite s.pc (encode i) base)
      else none := by
  unfold State.writeFault?
  rw [State.readFault?_eq]
  by_cases h : len = 0 ∨ base + len ≤ memSize
  · simp only [h, if_true, not_true_eq_false, if_false]
  · simp only [h, if_false, not_false_eq_true, if_true]

/-! ## Call stack and ends of an instruction -/

/-- A push that happens leaves a stack within its depth (R28). -/
theorem pushStack_eq_some {stack l : List Word} {v : Word} :
    pushStack stack v = some l ↔ stack.length < stackDepth ∧ l = v :: stack := by
  unfold pushStack
  split <;> simp_all [eq_comm]

/-- A push is refused exactly when the stack does not hold fewer than 16 entries (R28). -/
theorem pushStack_eq_none {stack : List Word} {v : Word} :
    pushStack stack v = none ↔ stackDepth ≤ stack.length := by
  unfold pushStack
  split <;> simp_all

/-- A pop that happens takes the entry pushed last (R28). -/
theorem popStack_eq_some {stack rest : List Word} {v : Word} :
    popStack stack = some (v, rest) ↔ stack = v :: rest := by
  cases stack <;> simp [popStack]

/-- A fault brings no state (R107, R238). -/
theorem raise_ne_next (f : Fault) (t : State) : raise f ≠ .next t := by simp [raise]

/-- What a completed instruction answers. -/
theorem State.jumpTo_eq_next {s t : State} {w : Word} : s.jumpTo w = .next t ↔ t = s.arriveAt w := by
  simp [State.jumpTo, eq_comm]

/-- What an instruction that completes with the default `next_pc` answers. -/
theorem State.complete_eq_next {s t : State} : s.complete = .next t ↔ t = s.arriveAt s.nextPc := by
  simp [State.complete, State.jumpTo, eq_comm]

/-- What a skip answers. -/
theorem State.skipIf_eq_next {s t : State} {c : Bool} :
    s.skipIf c = .next t ↔ t = s.arriveAt (if c then s.nextPc + 2 else s.nextPc) := by
  simp [State.skipIf, State.jumpTo, eq_comm]

/-! ## Timers -/

/-- The host's turn keeps a timer in range (R30). -/
theorem timerOverTurn_inRange (dt : Rat) (acc : Ticks) (h : 0 ≤ acc ∧ acc ≤ 255) :
    0 ≤ timerOverTurn dt acc ∧ timerOverTurn dt acc ≤ 255 := by
  unfold timerOverTurn timerStep
  split
  · exact h
  · rename_i hdt
    exact ⟨le_max_left _ _, max_le (by norm_num) (by linarith [h.2])⟩

/-- A timer that is set is in range (R30). -/
theorem timerSet_inRange (t : Byte) : 0 ≤ timerSet t ∧ timerSet t ≤ 255 := by
  have h : t.toNat ≤ 255 := by have := t.isLt; omega
  exact ⟨by simp [timerSet], by simpa [timerSet] using (Nat.cast_le (α := Rat)).2 h⟩

/-- A read of a timer in range: its whole ticks, or one less where the slack draw picks it (R190). -/
theorem timerGet_toNat (slack low : Bool) {acc : Ticks} (h : 0 ≤ acc ∧ acc ≤ 255) :
    ((timerGet slack low acc).toNat : Int) =
      if slack = true ∧ low = true ∧ 1 ≤ acc.floor then acc.floor - 1 else acc.floor := by
  have h0 : 0 ≤ acc.floor := Rat.le_floor_iff.2 (by simpa using h.1)
  have h1 : acc.floor < 256 := Rat.floor_lt_iff.2 (lt_of_le_of_lt h.2 (by norm_num))
  simp only [timerGet, BitVec.toNat_ofNat]
  cases slack <;> cases low <;> simp <;> omega

/-- The host's turn is `update_timers` with the environment's elapsed time, where the interface accepts it (R190). -/
theorem State.hostTurn_eq_updateTimers (s : State) :
    s.hostTurn =
      { (s.updateTimers s.env.elapsed).getD s with inputs := s.inputs.tail, turn := s.turn + 1 } := by
  unfold State.hostTurn State.updateTimers timerOverTurn
  by_cases h : s.env.elapsed < 0 <;> simp [h]

/-! ## Construction -/

/-- A ROM that fits is stored over the empty block; no other gives a state (R261, R262). -/
theorem State.constructWithRom_eq_some {cfg : Config} {rom : List Byte} {s : State} :
    State.constructWithRom cfg rom = some s ↔
      rom.length ≤ memSize - programStart ∧ s = (State.constructEmpty cfg).storeBytes programStart rom := by
  unfold State.constructWithRom
  split <;> rename_i h <;> simp [h, eq_comm]

/-! ## Framebuffer -/

/-- A flip toggles the cell it names and no other (R171). -/
theorem Framebuffer.cell_flip (fb : Framebuffer) (c r c' r' : Nat) :
    Framebuffer.cell (Framebuffer.flip fb c r) c' r' =
      if c' % 64 = c % 64 ∧ r' % 32 = r % 32 then !Framebuffer.cell fb c' r' else Framebuffer.cell fb c' r' := by
  simp only [Framebuffer.cell, Framebuffer.flip, Vector.getElem_set]
  by_cases hc : c % 64 = c' % 64
  · by_cases hr : r % 32 = r' % 32
    · simp [hc, hr]
    · simp [hc, hr, Ne.symm hr]
  · simp [hc, Ne.symm hc]

/-- Coordinates wrap (R171). -/
theorem Framebuffer.cell_mod (fb : Framebuffer) (c r : Nat) :
    Framebuffer.cell fb (c % 64) (r % 32) = Framebuffer.cell fb c r := by
  simp [Framebuffer.cell]

/-- Every cell of a cleared framebuffer is unlit (R170). -/
@[simp] theorem Framebuffer.cell_clearedFb (c r : Nat) : Framebuffer.cell clearedFb c r = false := by
  simp [Framebuffer.cell, clearedFb]

end Sys2Proof.Machine
end

