-- ==== Sys2Proof/Laws/Framebuffer.lean ====
section
/-! SUPPORT. What a sprite plot does to every cell and what it reports (43_display.md R171 to R173): first one row,
then all rows, then `drawSprite`. -/

namespace Sys2Proof.Machine

/-- A 1 bit of row byte `b`, among the bit positions `bits`, lands on the cell (c, r) (R171). -/
def RowCovers (bits : List Nat) (x row : Nat) (b : Byte) (c r : Nat) : Prop :=
  ∃ sx ∈ bits, b.getLsbD (7 - sx) = true ∧ c % 64 = (x + sx) % 64 ∧ r % 32 = row % 32

/-- A 1 bit of the sprite `rows`, drawn at (x, y), lands on the cell (c, r) (R171). -/
def RowsCover (x y : Nat) (rows : List Byte) (c r : Nat) : Prop :=
  ∃ sy, ∃ h : sy < rows.length, ∃ sx < 8,
    rows[sy].getLsbD (7 - sx) = true ∧ c % 64 = (x + sx) % 64 ∧ r % 32 = (y + sy) % 32

/-! ## One row -/

/-- A row's bits land on different columns (R173), so a plot of some of them toggles the cells they cover. -/
theorem cell_foldl_plotBit (bits : List Nat) (hnd : bits.Nodup) (hlt : ∀ sx ∈ bits, sx < 8) (x row : Nat) (b : Byte)
    (acc : Framebuffer × Bool) (c r : Nat) :
    (RowCovers bits x row b c r →
      Framebuffer.cell (bits.foldl (plotBit x row b) acc).1 c r = !Framebuffer.cell acc.1 c r) ∧
    (¬ RowCovers bits x row b c r →
      Framebuffer.cell (bits.foldl (plotBit x row b) acc).1 c r = Framebuffer.cell acc.1 c r) := by
  induction bits generalizing acc with
  | nil => simp [RowCovers]
  | cons sx bits ih =>
    obtain ⟨hsx, hnd⟩ := List.nodup_cons.1 hnd
    have h8 := hlt sx (by simp)
    have hrest : ∀ s ∈ bits, s < 8 := fun s hs => hlt s (by simp [hs])
    simp only [List.foldl_cons]
    obtain ⟨ih1, ih2⟩ := ih hnd hrest (plotBit x row b acc sx)
    by_cases hhere : b.getLsbD (7 - sx) = true ∧ c % 64 = (x + sx) % 64 ∧ r % 32 = row % 32
    · have hnot : ¬ RowCovers bits x row b c r := by
        rintro ⟨s, hs, -, hc, -⟩
        have := hrest s hs
        have : s ≠ sx := fun h => hsx (h ▸ hs)
        omega
      have hcell : Framebuffer.cell (plotBit x row b acc sx).1 c r = !Framebuffer.cell acc.1 c r := by
        simp only [plotBit, hhere.1, if_true, Framebuffer.cell_flip]
        rw [if_pos hhere.2]
      exact ⟨fun _ => by rw [ih2 hnot, hcell], fun h => absurd ⟨sx, by simp, hhere⟩ h⟩
    · have hcell : Framebuffer.cell (plotBit x row b acc sx).1 c r = Framebuffer.cell acc.1 c r := by
        unfold plotBit
        split
        · rename_i hb
          simp only [Framebuffer.cell_flip]
          rw [if_neg fun h => hhere ⟨hb, h⟩]
        · rfl
      rw [hcell] at ih1 ih2
      have hiff : RowCovers (sx :: bits) x row b c r ↔ RowCovers bits x row b c r := by
        simp only [RowCovers, List.mem_cons, exists_eq_or_imp]
        exact ⟨fun h => h.resolve_left hhere, .inr⟩
      rw [hiff]
      exact ⟨ih1, ih2⟩

/-- The collision a plot of some of a row's bits reports (R172): a bit that covers a lit cell. -/
theorem snd_foldl_plotBit (bits : List Nat) (hnd : bits.Nodup) (hlt : ∀ sx ∈ bits, sx < 8) (x row : Nat) (b : Byte)
    (acc : Framebuffer × Bool) :
    (bits.foldl (plotBit x row b) acc).2 = true ↔
      acc.2 = true ∨ ∃ c r, RowCovers bits x row b c r ∧ Framebuffer.cell acc.1 c r = true := by
  induction bits generalizing acc with
  | nil => simp [RowCovers]
  | cons sx bits ih =>
    obtain ⟨hsx, hnd⟩ := List.nodup_cons.1 hnd
    have h8 := hlt sx (by simp)
    have hrest : ∀ s ∈ bits, s < 8 := fun s hs => hlt s (by simp [hs])
    simp only [List.foldl_cons]
    rw [ih hnd hrest]
    have hkeep : ∀ c r, RowCovers bits x row b c r →
        Framebuffer.cell (plotBit x row b acc sx).1 c r = Framebuffer.cell acc.1 c r := by
      rintro c r ⟨s, hs, -, hc, -⟩
      have := hrest s hs
      have : s ≠ sx := fun h => hsx (h ▸ hs)
      unfold plotBit
      split
      · simp only [Framebuffer.cell_flip]
        rw [if_neg (by omega)]
      · rfl
    have hsnd : (plotBit x row b acc sx).2 = true ↔
        acc.2 = true ∨ (b.getLsbD (7 - sx) = true ∧ Framebuffer.cell acc.1 (x + sx) row = true) := by
      unfold plotBit
      split <;> simp_all
    rw [hsnd]
    constructor
    · rintro ((h | ⟨hb, hc⟩) | ⟨c, r, hcov, hc⟩)
      · exact .inl h
      · exact .inr ⟨x + sx, row, ⟨sx, by simp, hb, rfl, rfl⟩, hc⟩
      · rw [hkeep c r hcov] at hc
        obtain ⟨s, hs, h⟩ := hcov
        exact .inr ⟨c, r, ⟨s, by simp [hs], h⟩, hc⟩
    · rintro (h | ⟨c, r, ⟨s, hs, hb, hcol, hrow⟩, hc⟩)
      · exact .inl (.inl h)
      · rcases List.mem_cons.1 hs with rfl | hs
        · refine .inl (.inr ⟨hb, ?_⟩)
          rwa [← Framebuffer.cell_mod, ← hcol, ← hrow, Framebuffer.cell_mod]
        · have hcov : RowCovers bits x row b c r := ⟨s, hs, hb, hcol, hrow⟩
          exact .inr ⟨c, r, hcov, by rw [hkeep c r hcov]; exact hc⟩

/-- The eight bit positions of a sprite row. -/
theorem mem_rowBits {sx : Nat} : sx ∈ [0, 1, 2, 3, 4, 5, 6, 7] ↔ sx < 8 := by
  simp only [List.mem_cons, List.not_mem_nil, or_false]
  omega

/-! ## All rows -/

/-- The rows of a sprite land on different rows (R173), so a plot toggles exactly the cells it covers. -/
theorem cell_plotRows (rows : List Byte) (hlen : rows.length ≤ 32) (x y : Nat) (acc : Framebuffer × Bool) (c r : Nat) :
    (RowsCover x y rows c r →
      Framebuffer.cell (plotRows x y rows acc).1 c r = !Framebuffer.cell acc.1 c r) ∧
    (¬ RowsCover x y rows c r →
      Framebuffer.cell (plotRows x y rows acc).1 c r = Framebuffer.cell acc.1 c r) := by
  induction rows generalizing y acc with
  | nil => simp [RowsCover, plotRows]
  | cons b rows ih =>
    simp only [List.length_cons] at hlen
    simp only [plotRows]
    obtain ⟨ih1, ih2⟩ := ih (by omega) (y + 1) (plotRow x y b acc)
    obtain ⟨h1, h2⟩ := cell_foldl_plotBit [0, 1, 2, 3, 4, 5, 6, 7] (by decide) (fun _ => mem_rowBits.1) x y b acc c r
    rw [show List.foldl (plotBit x y b) acc [0, 1, 2, 3, 4, 5, 6, 7] = plotRow x y b acc from rfl] at h1 h2
    have hcons : RowsCover x y (b :: rows) c r ↔
        RowCovers [0, 1, 2, 3, 4, 5, 6, 7] x y b c r ∨ RowsCover x (y + 1) rows c r := by
      constructor
      · rintro ⟨sy, hsy, sx, hsx, hb, hc, hr⟩
        cases sy with
        | zero => exact .inl ⟨sx, mem_rowBits.2 hsx, hb, hc, hr⟩
        | succ sy =>
          exact .inr ⟨sy, by simpa using hsy, sx, hsx, hb, hc, by rw [hr]; congr 1; omega⟩
      · rintro (⟨sx, hsx, hb, hc, hr⟩ | ⟨sy, hsy, sx, hsx, hb, hc, hr⟩)
        · exact ⟨0, by simp, sx, mem_rowBits.1 hsx, hb, hc, hr⟩
        · exact ⟨sy + 1, by simpa using hsy, sx, hsx, hb, hc, by rw [hr]; congr 1; omega⟩
    have hdisj : RowCovers [0, 1, 2, 3, 4, 5, 6, 7] x y b c r → ¬ RowsCover x (y + 1) rows c r := by
      rintro ⟨-, -, -, -, hr⟩ ⟨sy, hsy, -, -, -, -, hr'⟩
      omega
    rw [hcons]
    constructor
    · rintro (h | h)
      · rw [ih2 (hdisj h), h1 h]
      · rw [ih1 h, h2 fun h' => hdisj h' h]
    · intro h
      rw [ih2 fun h' => h (.inr h'), h2 fun h' => h (.inl h')]

/-- The collision a plot reports (R172): a 1 bit that covers a lit cell. -/
theorem snd_plotRows (rows : List Byte) (hlen : rows.length ≤ 32) (x y : Nat) (acc : Framebuffer × Bool) :
    (plotRows x y rows acc).2 = true ↔
      acc.2 = true ∨ ∃ c r, RowsCover x y rows c r ∧ Framebuffer.cell acc.1 c r = true := by
  induction rows generalizing y acc with
  | nil => simp [RowsCover, plotRows]
  | cons b rows ih =>
    simp only [List.length_cons] at hlen
    simp only [plotRows]
    rw [ih (by omega), show plotRow x y b acc = List.foldl (plotBit x y b) acc [0, 1, 2, 3, 4, 5, 6, 7] from rfl,
      snd_foldl_plotBit _ (by decide) (fun _ => mem_rowBits.1)]
    have hkeep : ∀ c r, RowsCover x (y + 1) rows c r →
        Framebuffer.cell (List.foldl (plotBit x y b) acc [0, 1, 2, 3, 4, 5, 6, 7]).1 c r = Framebuffer.cell acc.1 c r := by
      rintro c r ⟨sy, hsy, -, -, -, -, hr⟩
      refine (cell_foldl_plotBit _ (by decide) (fun _ => mem_rowBits.1) x y b acc c r).2 ?_
      rintro ⟨-, -, -, -, hr'⟩
      omega
    constructor
    · rintro ((h | ⟨c, r, ⟨sx, hsx, hb, hc, hr⟩, hcell⟩) | ⟨c, r, hcov, hcell⟩)
      · exact .inl h
      · exact .inr ⟨c, r, ⟨0, by simp, sx, mem_rowBits.1 hsx, hb, hc, hr⟩, hcell⟩
      · rw [hkeep c r hcov] at hcell
        obtain ⟨sy, hsy, sx, hsx, hb, hc, hr⟩ := hcov
        exact .inr ⟨c, r, ⟨sy + 1, by simpa using hsy, sx, hsx, hb, hc, by rw [hr]; congr 1; omega⟩, hcell⟩
    · rintro (h | ⟨c, r, ⟨sy, hsy, sx, hsx, hb, hc, hr⟩, hcell⟩)
      · exact .inl (.inl h)
      · cases sy with
        | zero => exact .inl (.inr ⟨c, r, ⟨sx, mem_rowBits.2 hsx, hb, hc, hr⟩, hcell⟩)
        | succ sy =>
          have hcov : RowsCover x (y + 1) rows c r :=
            ⟨sy, by simpa using hsy, sx, hsx, hb, hc, by rw [hr]; congr 1; omega⟩
          exact .inr ⟨c, r, hcov, by rw [hkeep c r hcov]; exact hcell⟩

/-! ## The draw -/

/-- `Display.draw` toggles the cells its sprite covers (R171). -/
theorem cell_drawSprite_covered {fb : Framebuffer} {x y : Byte} {rows : List Byte} {c r : Nat}
    (hlen : rows.length ≤ 32) (h : RowsCover x.toNat y.toNat rows c r) :
    Framebuffer.cell (drawSprite fb x y rows).1 c r = !Framebuffer.cell fb c r :=
  (cell_plotRows rows hlen x.toNat y.toNat (fb, false) c r).1 h

/-- `Display.draw` leaves every other cell as it was (R171). -/
theorem cell_drawSprite_uncovered {fb : Framebuffer} {x y : Byte} {rows : List Byte} {c r : Nat}
    (hlen : rows.length ≤ 32) (h : ¬ RowsCover x.toNat y.toNat rows c r) :
    Framebuffer.cell (drawSprite fb x y rows).1 c r = Framebuffer.cell fb c r :=
  (cell_plotRows rows hlen x.toNat y.toNat (fb, false) c r).2 h

/-- `Display.draw` reports a collision exactly when its sprite covers a lit cell (R172). -/
theorem snd_drawSprite {fb : Framebuffer} {x y : Byte} {rows : List Byte} (hlen : rows.length ≤ 32) :
    (drawSprite fb x y rows).2 = true ↔
      ∃ c r, RowsCover x.toNat y.toNat rows c r ∧ Framebuffer.cell fb c r = true := by
  simpa [drawSprite] using snd_plotRows rows hlen x.toNat y.toNat (fb, false)

end Sys2Proof.Machine
end

