-- ==== Sys2Proof/Laws/Step.lean ====
section
/-! SUPPORT. What the fetch and a whole step can do, said once. -/

namespace Sys2Proof.Machine

/-- A fetch that succeeds: pc is at most 0xFFE and the word is big-endian at pc (R54, R102). -/
theorem State.fetch_eq_ok {s : State} {w : Word} :
    s.fetch = .ok w ↔ s.pc.toNat + 2 ≤ memSize ∧ w = s.fetch16 s.pc.toNat := by
  unfold State.fetch
  split
  · rename_i a ha
    have := (outOfRange_eq_some.1 ha).1.2
    simp
    omega
  · rename_i ha
    have := outOfRange_eq_none.1 ha
    simp [eq_comm]
    omega

/-- A fetch that faults (R102). -/
theorem State.fetch_eq_error {s : State} {f : Fault} :
    s.fetch = .error f ↔
      memSize < s.pc.toNat + 2 ∧ f = .outOfBoundsMemoryAccess s.pc none (max s.pc.toNat memSize) := by
  unfold State.fetch
  split
  · rename_i a ha
    obtain ⟨⟨-, h⟩, rfl⟩ := outOfRange_eq_some.1 ha
    simp [h, eq_comm]
  · rename_i ha
    have := outOfRange_eq_none.1 ha
    simp
    omega

/-- A step that goes on fetched a word, decoded it, ran it, and gave the host its turn. -/
theorem step_eq_next {s t : State} :
    step s = .next t ↔
      ∃ w i u, s.fetch = .ok w ∧ decode w = .instruction i ∧ exec i s = .next u ∧ t = u.hostTurn := by
  unfold step
  split
  · rename_i f hf
    simp [raise, hf]
  · rename_i w hw
    split
    · rename_i w' hd
      simp [raise, hw, hd]
    · rename_i i hd
      split
      · rename_i u hu
        simp [hw, hd, hu, eq_comm]
      · rename_i f hu
        simp [hw, hd, hu]
      · rename_i r hu
        simp [hw, hd, hu]

/-- A step that faults: at the fetch, at the decoder, or in the instruction, in this order (R239). -/
theorem step_eq_fault {s : State} {f : Fault} :
    step s = .fault f ↔
      s.fetch = .error f ∨
      (∃ w w', s.fetch = .ok w ∧ decode w = .unrecognizedInstruction w' ∧ f = .decodeError s.pc w') ∨
      ∃ w i, s.fetch = .ok w ∧ decode w = .instruction i ∧ exec i s = .fault f := by
  unfold step
  split
  · rename_i g hg
    simp [raise, hg]
  · rename_i w hw
    split
    · rename_i w' hd
      simp [raise, hw, hd, eq_comm]
    · rename_i i hd
      split
      · rename_i u hu
        simp [hw, hd, hu]
      · rename_i g hu
        simp [hw, hd, hu]
      · rename_i r hu
        simp [hw, hd, hu]

end Sys2Proof.Machine
end

