-- ==== Sys2Proof/Laws/Exec.lean ====
section
/-! SUPPORT. What each instruction with a check can answer, said once: when it goes on and with which state. -/

namespace Sys2Proof.Machine

/-- RET goes on from a stack that is not empty (R120). -/
theorem execRet_eq_next {s t : State} :
    execRet s = .next t ↔ ∃ v rest, s.stack = v :: rest ∧ t = (s.setStack rest).arriveAt v := by
  unfold execRet
  split
  · rename_i h
    have : s.stack = [] := by cases hs : s.stack <;> simp_all [popStack]
    simp [raise, this]
  · rename_i v rest h
    rw [State.jumpTo_eq_next, popStack_eq_some.1 h]
    exact ⟨fun h => ⟨v, rest, rfl, h⟩, fun ⟨v', rest', h, ht⟩ => by injection h with h1 h2; subst h1 h2; exact ht⟩

/-- CALL goes on while the stack holds fewer than 16 entries (R123). -/
theorem execCall_eq_next {nnn : Addr12} {s t : State} :
    execCall nnn s = .next t ↔
      s.stack.length < stackDepth ∧ t = (s.setStack (s.nextPc :: s.stack)).arriveAt (zextAddr nnn) := by
  unfold execCall
  split
  · rename_i h
    have := pushStack_eq_none.1 h
    simp only [raise, reduceCtorEq, false_iff, not_and]
    omega
  · rename_i l h
    obtain ⟨hlt, rfl⟩ := pushStack_eq_some.1 h
    simp [State.jumpTo_eq_next, hlt]

/-- SKP goes on where V[x] names a key (R192). -/
theorem execSkipPressed_eq_next {x : Nibble} {s t : State} :
    execSkipPressed x s = .next t ↔
      keyIndexValid (s.v x) = true ∧ t = s.arriveAt (if s.keyPressed (s.v x) then s.nextPc + 2 else s.nextPc) := by
  unfold execSkipPressed
  split <;> rename_i h <;> simp [h, State.skipIf_eq_next, raise]

/-- SKNP goes on where V[x] names a key (R193). -/
theorem execSkipNotPressed_eq_next {x : Nibble} {s t : State} :
    execSkipNotPressed x s = .next t ↔
      keyIndexValid (s.v x) = true ∧ t = s.arriveAt (if !s.keyPressed (s.v x) then s.nextPc + 2 else s.nextPc) := by
  unfold execSkipNotPressed
  split <;> rename_i h <;> simp only [h, State.skipIf_eq_next, raise] <;> simp

/-- DRW goes on where its rows lie in memory, and on no rows (R176). -/
theorem execDraw_eq_next {x y n : Nibble} {s t : State} :
    execDraw x y n s = .next t ↔
      (n.toNat = 0 ∨ s.base + n.toNat ≤ memSize) ∧
      t = ((s.setFb (drawSprite s.fb (s.v x) (s.v y) (s.spriteRows n)).1).setFlag
        (drawSprite s.fb (s.v x) (s.v y) (s.spriteRows n)).2).arriveAt s.nextPc := by
  unfold execDraw
  rw [State.readFault?_eq]
  by_cases h : n.toNat = 0 ∨ s.base + n.toNat ≤ memSize
  · simp only [h, if_true, true_and, State.complete_eq_next]
    exact Iff.rfl
  · simp [h, raise]

/-- When a store does not fault: inside the address space, and above the font where the policy is `fault` (R53). -/
theorem State.writeFault?_eq_none {s : State} {i : Instr} {base len : Nat} (hlen : len ≠ 0) :
    s.writeFault? i base len = none ↔
      base + len ≤ memSize ∧ (s.cfg.fontWritePolicy = .write ∨ fontEnd ≤ base) := by
  rw [State.writeFault?_eq]
  by_cases h : base + len ≤ memSize
  · cases hp : s.cfg.fontWritePolicy <;> simp [h, hlen]
  · simp [h, hlen]

/-- LD B, Vx goes on where its store does not fault (R213). -/
theorem execStoreBCD_eq_next {x : Nibble} {s t : State} :
    execStoreBCD x s = .next t ↔
      s.writeFault? (.storeBCD x) s.base 3 = none ∧
      t = (s.storeBytes s.base (bcdDigits (s.v x))).arriveAt s.nextPc := by
  unfold execStoreBCD
  split <;> rename_i h <;> simp only [h, raise, State.complete_eq_next] <;> simp [State.nextPc]

/-- LD [I], Vx goes on where its store does not fault (R214). -/
theorem execStoreRegisterBlock_eq_next {x : Nibble} {s t : State} :
    execStoreRegisterBlock x s = .next t ↔
      s.writeFault? (.storeRegisterBlock x) s.base (blockLength x) = none ∧
      t = ((s.storeBytes s.base (s.registerBlock x)).setI (s.indexAfterBlock x)).arriveAt s.nextPc := by
  unfold execStoreRegisterBlock
  split <;> rename_i h <;> simp only [h, raise, State.complete_eq_next] <;> simp [State.nextPc]

/-- LD Vx, [I] goes on where its bytes lie in memory (R215). -/
theorem execLoadRegisterBlock_eq_next {x : Nibble} {s t : State} :
    execLoadRegisterBlock x s = .next t ↔
      s.base + blockLength x ≤ memSize ∧
      t = ((s.loadV (s.memoryBlock x)).setI (s.indexAfterBlock x)).arriveAt s.nextPc := by
  unfold execLoadRegisterBlock
  rw [State.readFault?_eq]
  have hlen : blockLength x ≠ 0 := by simp [blockLength]
  by_cases h : s.base + blockLength x ≤ memSize
  · simp only [h, or_true, if_true, true_and, State.complete_eq_next]
    exact Iff.rfl
  · simp [h, hlen, raise]

/-- LD Vx, K always goes on: with the lowest pressed key, or held (R195). -/
theorem execWaitKey_eq_next {x : Nibble} {s t : State} :
    execWaitKey x s = .next t ↔
      (s.firstKey = none ∧ t = s.hold) ∨
      ∃ k, s.firstKey = some k ∧ t = (s.setV x (BitVec.ofNat 8 k)).arriveAt s.nextPc := by
  unfold execWaitKey
  split <;> rename_i h <;> simp [h, eq_comm]

/-! ## Operands at I -/

/-- V0..Vx are x + 1 bytes (R214). -/
@[simp] theorem State.length_registerBlock (s : State) (x : Nibble) : (s.registerBlock x).length = blockLength x := by
  have := x.isLt
  simp [State.registerBlock, blockLength]
  omega

/-- The k-th byte of V0..Vx is V[k] (R214). -/
theorem State.getElem?_registerBlock (s : State) {x k : Nibble} (h : k ≤ x) :
    (s.registerBlock x)[k.toNat]? = some (s.v k) := by
  have hk : k.toNat ≤ x.toNat := h
  have hlt : k.toNat < 16 := k.isLt
  simp only [State.registerBlock, blockLength, List.getElem?_take, if_pos (show k.toNat < x.toNat + 1 by omega), State.v]
  simp [hlt]

/-- A block load writes V0..Vx from memory and leaves the registers above (R215). -/
theorem State.v_loadMemoryBlock (s : State) (x q : Nibble) :
    (s.loadV (s.memoryBlock x)).v q = if q ≤ x then s.byteAt (s.base + q.toNat) else s.v q := by
  simp only [State.v, State.loadV_regs]
  rw [Regs.getElem_load _ _ _ _ q.isLt]
  simp only [Nat.zero_le, if_true, State.memoryBlock, State.getElem?_bytesAt, blockLength, Nat.sub_zero]
  by_cases h : q ≤ x
  · have h' : q.toNat ≤ x.toNat := h
    rw [if_pos h, if_pos (by omega), Option.getD_some]
  · have h' : ¬ q.toNat ≤ x.toNat := h
    rw [if_neg h, if_neg (by omega), Option.getD_none]

/-- A sprite has n rows (R176). -/
@[simp] theorem State.length_spriteRows (s : State) (n : Nibble) : (s.spriteRows n).length = n.toNat := by
  simp [State.spriteRows]

/-- BCD is three bytes (R213). -/
@[simp] theorem length_bcdDigits (v : Byte) : (bcdDigits v).length = 3 := rfl

end Sys2Proof.Machine
end

