-- ==== Sys2Proof/Laws/PerInstr.lean ====
section
/-! SUPPORT. Family `TableRow`: an instruction's word carries the fixed bits of its own row of
spec/opcode_table.json, `(encode i & mask) = match`, one lemma per constructor. -/

namespace Sys2Proof.Laws.TableRow

/-- The (match, mask) pair spec/opcode_table.json gives an instruction's row. -/
def matchAndMask : Instr → Word × Word
  | .clearScreen => (0x00E0, 0xFFFF)
  | .ret => (0x00EE, 0xFFFF)
  | .sys _ => (0x0000, 0xF000)
  | .jump _ => (0x1000, 0xF000)
  | .call _ => (0x2000, 0xF000)
  | .skipEqImm _ _ => (0x3000, 0xF000)
  | .skipNeImm _ _ => (0x4000, 0xF000)
  | .skipEqReg _ _ => (0x5000, 0xF00F)
  | .putImm _ _ => (0x6000, 0xF000)
  | .addImm _ _ => (0x7000, 0xF000)
  | .applyId _ _ => (0x8000, 0xF00F)
  | .applyOr _ _ => (0x8001, 0xF00F)
  | .applyAnd _ _ => (0x8002, 0xF00F)
  | .applyXor _ _ => (0x8003, 0xF00F)
  | .applyAdd _ _ => (0x8004, 0xF00F)
  | .applySubtract _ _ => (0x8005, 0xF00F)
  | .applyShiftRight _ _ => (0x8006, 0xF00F)
  | .applySubtractInv _ _ => (0x8007, 0xF00F)
  | .applyShiftLeft _ _ => (0x800E, 0xF00F)
  | .skipNeReg _ _ => (0x9000, 0xF00F)
  | .setIndex _ => (0xA000, 0xF000)
  | .jumpPlusV0 _ => (0xB000, 0xF000)
  | .randomize _ _ => (0xC000, 0xF000)
  | .draw _ _ _ => (0xD000, 0xF000)
  | .skipPressed _ => (0xE09E, 0xF0FF)
  | .skipNotPressed _ => (0xE0A1, 0xF0FF)
  | .getDelay _ => (0xF007, 0xF0FF)
  | .waitKey _ => (0xF00A, 0xF0FF)
  | .setDelay _ => (0xF015, 0xF0FF)
  | .setSound _ => (0xF018, 0xF0FF)
  | .addToIndex _ => (0xF01E, 0xF0FF)
  | .loadGlyphAddress _ => (0xF029, 0xF0FF)
  | .storeBCD _ => (0xF033, 0xF0FF)
  | .storeRegisterBlock _ => (0xF055, 0xF0FF)
  | .loadRegisterBlock _ => (0xF065, 0xF0FF)

/-- The word of an instruction matches its own row (R74, R75). -/
def Statement (i : Instr) : Prop := encode i &&& (matchAndMask i).2 = (matchAndMask i).1

theorem clearScreen : Statement .clearScreen := by unfold Statement; decide

theorem ret : Statement .ret := by unfold Statement; decide

theorem sys (nnn : Addr12) : Statement (.sys nnn) := formNnn_and_F000 0x0 nnn

theorem jump (nnn : Addr12) : Statement (.jump nnn) := formNnn_and_F000 0x1 nnn

theorem call (nnn : Addr12) : Statement (.call nnn) := formNnn_and_F000 0x2 nnn

theorem skipEqImm (x : Nibble) (kk : Byte) : Statement (.skipEqImm x kk) := formXkk_and_F000 0x3 x kk

theorem skipNeImm (x : Nibble) (kk : Byte) : Statement (.skipNeImm x kk) := formXkk_and_F000 0x4 x kk

theorem skipEqReg (x y : Nibble) : Statement (.skipEqReg x y) := formXyn_and_F00F 0x5 x y 0x0

theorem putImm (x : Nibble) (kk : Byte) : Statement (.putImm x kk) := formXkk_and_F000 0x6 x kk

theorem addImm (x : Nibble) (kk : Byte) : Statement (.addImm x kk) := formXkk_and_F000 0x7 x kk

theorem applyId (x y : Nibble) : Statement (.applyId x y) := formXyn_and_F00F 0x8 x y 0x0

theorem applyOr (x y : Nibble) : Statement (.applyOr x y) := formXyn_and_F00F 0x8 x y 0x1

theorem applyAnd (x y : Nibble) : Statement (.applyAnd x y) := formXyn_and_F00F 0x8 x y 0x2

theorem applyXor (x y : Nibble) : Statement (.applyXor x y) := formXyn_and_F00F 0x8 x y 0x3

theorem applyAdd (x y : Nibble) : Statement (.applyAdd x y) := formXyn_and_F00F 0x8 x y 0x4

theorem applySubtract (x y : Nibble) : Statement (.applySubtract x y) := formXyn_and_F00F 0x8 x y 0x5

theorem applyShiftRight (x y : Nibble) : Statement (.applyShiftRight x y) := formXyn_and_F00F 0x8 x y 0x6

theorem applySubtractInv (x y : Nibble) : Statement (.applySubtractInv x y) := formXyn_and_F00F 0x8 x y 0x7

theorem applyShiftLeft (x y : Nibble) : Statement (.applyShiftLeft x y) := formXyn_and_F00F 0x8 x y 0xE

theorem skipNeReg (x y : Nibble) : Statement (.skipNeReg x y) := formXyn_and_F00F 0x9 x y 0x0

theorem setIndex (nnn : Addr12) : Statement (.setIndex nnn) := formNnn_and_F000 0xA nnn

theorem jumpPlusV0 (nnn : Addr12) : Statement (.jumpPlusV0 nnn) := formNnn_and_F000 0xB nnn

theorem randomize (x : Nibble) (kk : Byte) : Statement (.randomize x kk) := formXkk_and_F000 0xC x kk

theorem draw (x y n : Nibble) : Statement (.draw x y n) := formXyn_and_F000 0xD x y n

theorem skipPressed (x : Nibble) : Statement (.skipPressed x) := formXkk_and_F0FF 0xE x 0x9E

theorem skipNotPressed (x : Nibble) : Statement (.skipNotPressed x) := formXkk_and_F0FF 0xE x 0xA1

theorem getDelay (x : Nibble) : Statement (.getDelay x) := formXkk_and_F0FF 0xF x 0x07

theorem waitKey (x : Nibble) : Statement (.waitKey x) := formXkk_and_F0FF 0xF x 0x0A

theorem setDelay (x : Nibble) : Statement (.setDelay x) := formXkk_and_F0FF 0xF x 0x15

theorem setSound (x : Nibble) : Statement (.setSound x) := formXkk_and_F0FF 0xF x 0x18

theorem addToIndex (x : Nibble) : Statement (.addToIndex x) := formXkk_and_F0FF 0xF x 0x1E

theorem loadGlyphAddress (x : Nibble) : Statement (.loadGlyphAddress x) := formXkk_and_F0FF 0xF x 0x29

theorem storeBCD (x : Nibble) : Statement (.storeBCD x) := formXkk_and_F0FF 0xF x 0x33

theorem storeRegisterBlock (x : Nibble) : Statement (.storeRegisterBlock x) := formXkk_and_F0FF 0xF x 0x55

theorem loadRegisterBlock (x : Nibble) : Statement (.loadRegisterBlock x) := formXkk_and_F0FF 0xF x 0x65

end Sys2Proof.Laws.TableRow
end

