-- ==== Sys2Proof/Tests/Slice0.lean ====
section
/-! SUPPORT. Tests. Every expected result is a row of 95_test_vectors.md (its id stands in the theorem's comment) or a
word written out from 30_encoding.md R75. The witnesses at the end show, for each statement with hypotheses, a state
and operands that meet them, one per clause, at the boundary of its range. -/

namespace Sys2Proof.Machine.Tests


/-! ## The bench -/

/-- The environment with these keys pressed and this random byte. -/
def envOf (keys : List Nat) (rng : Byte) (low : Bool) (elapsed : Rat) : Env where
  keys := Vector.ofFn fun k => keys.contains k.val
  rngByte := rng
  readLow := low
  elapsed := elapsed

/-- No key, rng_byte = 0, no time passing: the conventions of 95_test_vectors.md. -/
def quiet : Env := envOf [] 0x00 false 0

/-- The reset state with one settled environment and these registers. -/
def bench (env : Env) (regs : List (Nibble × Byte)) : State :=
  regs.foldl (fun s r => s.setV r.1 r.2) { State.reset with inputs := [env] }

/-- The bench in the conventions of 95_test_vectors.md. -/
def calm (regs : List (Nibble × Byte)) : State := bench quiet regs

/-- One cycle of the word `w` placed at pc, and a check of the state it leaves; false where it does not go on. -/
def after (w : Nat) (s : State) (check : State → Bool) : Bool :=
  match step (s.withFetchWord 16 w) with
  | .next t => check t
  | .fault _ => false
  | .refused _ => false

/-- The fault of one cycle of the word `w` placed at pc. -/
def faultAfter (w : Nat) (s : State) : Option Fault :=
  match step (s.withFetchWord 16 w) with
  | .next _ => none
  | .fault f => some f
  | .refused _ => none

/-- A byte stored beforehand. -/
def State.poke (s : State) (a : Nat) (bs : List Byte) : State := s.storeBytes a bs

/-- Whether these cells are lit and those are not. -/
def lit (these those : List (Nat × Nat)) (s : State) : Bool :=
  (these.all fun p => s.pixel p.1 p.2) && (those.all fun p => !s.pixel p.1 p.2)

/-! ## Well-formedness: the check refuses an ill-formed term -/

theorem test_wellFormed_refuses_sys_of_cls : wellFormed (.sys 0x0E0) = false := by decide
theorem test_wellFormed_refuses_sys_of_ret : wellFormed (.sys 0x0EE) = false := by decide
theorem test_wellFormed_admits_sys : wellFormed (.sys 0x0E1) = true := by decide

/-! ## Decoding: one word per constructor, from the fixed nibbles of R75 -/

theorem test_decode_clearScreen : decode 0b0000_0000_1110_0000 = .instruction .clearScreen := by decide
theorem test_decode_ret : decode 0b0000_0000_1110_1110 = .instruction .ret := by decide
theorem test_decode_sys : decode 0b0000_0001_0010_0011 = .instruction (.sys 0x123) := by decide
theorem test_decode_jump : decode 0b0001_0010_0011_0100 = .instruction (.jump 0x234) := by decide
theorem test_decode_call : decode 0b0010_0000_0010_0000 = .instruction (.call 0x020) := by decide
theorem test_decode_skipEqImm : decode 0b0011_0001_0000_1001 = .instruction (.skipEqImm 0x1 0x09) := by decide
theorem test_decode_skipNeImm : decode 0b0100_0001_0000_1001 = .instruction (.skipNeImm 0x1 0x09) := by decide
theorem test_decode_skipEqReg : decode 0b0101_0010_0011_0000 = .instruction (.skipEqReg 0x2 0x3) := by decide
theorem test_decode_putImm : decode 0b0110_1010_0100_0010 = .instruction (.putImm 0xA 0x42) := by decide
theorem test_decode_addImm : decode 0b0111_0011_1111_1111 = .instruction (.addImm 0x3 0xFF) := by decide
theorem test_decode_applyId : decode 0b1000_0101_0011_0000 = .instruction (.applyId 0x5 0x3) := by decide
theorem test_decode_applyOr : decode 0b1000_0101_0011_0001 = .instruction (.applyOr 0x5 0x3) := by decide
theorem test_decode_applyAnd : decode 0b1000_0101_0011_0010 = .instruction (.applyAnd 0x5 0x3) := by decide
theorem test_decode_applyXor : decode 0b1000_0101_0011_0011 = .instruction (.applyXor 0x5 0x3) := by decide
theorem test_decode_applyAdd : decode 0b1000_0101_0011_0100 = .instruction (.applyAdd 0x5 0x3) := by decide
theorem test_decode_applySubtract : decode 0b1000_0101_0011_0101 = .instruction (.applySubtract 0x5 0x3) := by decide
theorem test_decode_applyShiftRight : decode 0b1000_0101_0011_0110 = .instruction (.applyShiftRight 0x5 0x3) := by decide
theorem test_decode_applySubtractInv : decode 0b1000_0101_0011_0111 = .instruction (.applySubtractInv 0x5 0x3) := by
  decide
theorem test_decode_applyShiftLeft : decode 0b1000_0101_0011_1110 = .instruction (.applyShiftLeft 0x5 0x3) := by decide
theorem test_decode_skipNeReg : decode 0b1001_0010_0011_0000 = .instruction (.skipNeReg 0x2 0x3) := by decide
theorem test_decode_setIndex : decode 0b1010_0011_0000_0001 = .instruction (.setIndex 0x301) := by decide
theorem test_decode_jumpPlusV0 : decode 0b1011_0010_0000_0110 = .instruction (.jumpPlusV0 0x206) := by decide
theorem test_decode_randomize : decode 0b1100_0011_0000_1111 = .instruction (.randomize 0x3 0x0F) := by decide
theorem test_decode_draw : decode 0b1101_0000_0001_0101 = .instruction (.draw 0x0 0x1 0x5) := by decide
theorem test_decode_skipPressed : decode 0b1110_0010_1001_1110 = .instruction (.skipPressed 0x2) := by decide
theorem test_decode_skipNotPressed : decode 0b1110_0010_1010_0001 = .instruction (.skipNotPressed 0x2) := by decide
theorem test_decode_getDelay : decode 0b1111_0011_0000_0111 = .instruction (.getDelay 0x3) := by decide
theorem test_decode_waitKey : decode 0b1111_0101_0000_1010 = .instruction (.waitKey 0x5) := by decide
theorem test_decode_setDelay : decode 0b1111_0100_0001_0101 = .instruction (.setDelay 0x4) := by decide
theorem test_decode_setSound : decode 0b1111_0100_0001_1000 = .instruction (.setSound 0x4) := by decide
theorem test_decode_addToIndex : decode 0b1111_0010_0001_1110 = .instruction (.addToIndex 0x2) := by decide
theorem test_decode_loadGlyphAddress : decode 0b1111_0010_0010_1001 = .instruction (.loadGlyphAddress 0x2) := by decide
theorem test_decode_storeBCD : decode 0b1111_0110_0011_0011 = .instruction (.storeBCD 0x6) := by decide
theorem test_decode_storeRegisterBlock : decode 0b1111_0110_0101_0101 = .instruction (.storeRegisterBlock 0x6) := by
  decide
theorem test_decode_loadRegisterBlock : decode 0b1111_0110_0110_0101 = .instruction (.loadRegisterBlock 0x6) := by
  decide

-- F6, F7, F8, F9, F10
theorem test_decode_rejects_923F : decode 0x923F = .unrecognizedInstruction 0x923F := by decide
theorem test_decode_rejects_8018 : decode 0x8018 = .unrecognizedInstruction 0x8018 := by decide
theorem test_decode_rejects_801F : decode 0x801F = .unrecognizedInstruction 0x801F := by decide
theorem test_decode_rejects_E2A2 : decode 0xE2A2 = .unrecognizedInstruction 0xE2A2 := by decide
theorem test_decode_rejects_F0FF : decode 0xF0FF = .unrecognizedInstruction 0xF0FF := by decide

-- S11, S12, S13: the bytes of an encoded instruction; R54: the high byte comes first
theorem test_encode_bytes_of_call :
    (highByte (encode (.call 32)), lowByte (encode (.call 32))) = (0x20, 0x20) := by decide
theorem test_encode_bytes_of_skipEqImm :
    (highByte (encode (.skipEqImm 1 9)), lowByte (encode (.skipEqImm 1 9))) = (0x31, 0x09) := by decide
theorem test_decodeBytes_is_big_endian :
    decodeBytes [0x31, 0x09, 0x58] = some (.instruction (.skipEqImm 0x1 0x09), [0x58]) := by decide

/-! ## Fetch and decode (section 2.1), construction (section 4) -/

-- F1: the last fetchable word
theorem test_fetch_last_word :
    after 0x6001 { calm [] with pc := 0xFFE } (fun t => t.v 0 == 0x01 && t.pc == 0x1000) = true := by decide
-- F4: an odd pc
theorem test_fetch_at_odd_pc :
    after 0x6107 { calm [] with pc := 0x201 } (fun t => t.v 1 == 0x07 && t.pc == 0x203) = true := by decide
-- F5
theorem test_step_decodeError : faultAfter 0x5231 (calm []) = some (.decodeError 0x200 0x5231) := by decide
-- R1: the first cycle of an empty machine
theorem test_reset_first_cycle : step State.reset = .fault (.unimplementedSys 0x200 0x0000) := rfl
-- R4: a ROM of odd length
theorem test_rom_of_one_byte :
    ((State.constructWithRom Config.default [0x12]).map fun (s : State) => (s.byteAt 0x200, s.byteAt 0x201, s.atRunEnd))
      = some (0x12, 0x00, true) := by decide
-- R5
theorem test_font_glyph0 : State.reset.bytesAt 0x000 5 = [0xF0, 0x90, 0x90, 0x90, 0xF0] := by decide
-- the start of P2 from its ROM: the first cycle puts 0xFE into V0
theorem test_rom_program_runs :
    ((State.constructWithRom Config.default [0x60, 0xFE, 0xA3, 0x00]).map fun (s : State) =>
      match step s with
      | .next t => (t.v 0, t.pc)
      | _ => (0x00, 0x000)) = some (0xFE, 0x202) := by decide

/-! ## Control transfer (section 2.2) -/

-- C1, C2
theorem test_ret_pops :
    after 0x00EE { calm [] with pc := 0x300, stack := [0x202] } (fun t => t.pc == 0x202 && t.stack == []) = true := by
  decide
theorem test_ret_on_empty_stack : faultAfter 0x00EE (calm []) = some (.stackUnderflow 0x200 0x00EE) := by
  decide
-- C4, C5
theorem test_sys_faults : faultAfter 0x0123 (calm []) = some (.unimplementedSys 0x200 0x0123) := by decide
theorem test_zero_word_faults : faultAfter 0x0000 (calm []) = some (.unimplementedSys 0x200 0x0000) := by
  decide
-- C6, C7
theorem test_jump : after 0x1234 (calm []) (fun t => t.pc == 0x234) = true := by decide
theorem test_jump_to_itself : after 0x1200 (calm []) (fun t => t.pc == 0x200) = true := by decide
-- C10, C11
theorem test_call_on_full_stack :
    faultAfter 0x2300 { calm [] with stack := List.replicate 16 0x202 } = some (.stackOverflow 0x200 0x2300) := by
  decide
theorem test_call_at_top_of_memory :
    after 0x2300 { calm [] with pc := 0xFFE } (fun t => t.pc == 0x300 && t.stack == [0x1000]) = true := by
  decide
-- C13, C15
theorem test_skipEqImm_differs : after 0x3109 (calm [(1, 0x08)]) (fun t => t.pc == 0x202) = true := by decide
theorem test_skipEqImm_past_memory :
    after 0x3109 { calm [(1, 0x09)] with pc := 0xFFE } (fun t => t.pc == 0x1002) = true := by decide
-- C16, C17
theorem test_skipNeImm_differs : after 0x4109 (calm [(1, 0x08)]) (fun t => t.pc == 0x204) = true := by decide
theorem test_skipNeImm_equal : after 0x4109 (calm [(1, 0x09)]) (fun t => t.pc == 0x202) = true := by decide
-- C18, C19
theorem test_skipEqReg_equal :
    after 0x5230 (calm [(2, 0x10), (3, 0x10)]) (fun t => t.pc == 0x204) = true := by decide
theorem test_skipEqReg_differs :
    after 0x5230 (calm [(2, 0x10), (3, 0x11)]) (fun t => t.pc == 0x202) = true := by decide
-- C21, C22
theorem test_skipNeReg_differs :
    after 0x9230 (calm [(2, 0x01), (3, 0x02)]) (fun t => t.pc == 0x204) = true := by decide
theorem test_skipNeReg_itself : after 0x9220 (calm [(2, 0x01)]) (fun t => t.pc == 0x202) = true := by decide
-- C24, C25
theorem test_jumpPlusV0_unmasked : after 0xBFFF (calm [(0, 0xFF)]) (fun t => t.pc == 0x10FE) = true := by
  decide
theorem test_jumpPlusV0_reads_V0 : after 0xB500 (calm [(5, 0x10)]) (fun t => t.pc == 0x500) = true := by
  decide

/-! ## Register loads and ALU (section 2.3) -/

-- A1
theorem test_putImm : after 0x6A42 (calm []) (fun t => t.v 0xA == 0x42 && t.pc == 0x202) = true := by decide
-- A4, A6
theorem test_addImm_wraps :
    after 0x7001 (calm [(0, 0xFF)]) (fun t => t.v 0 == 0x00 && t.v 0xF == 0x00) = true := by decide
theorem test_addImm_to_VF : after 0x7F01 (calm [(0xF, 0x05)]) (fun t => t.v 0xF == 0x06) = true := by decide
-- A7
theorem test_applyId : after 0x8530 (calm [(3, 0x7F)]) (fun t => t.v 5 == 0x7F) = true := by decide
-- A8
theorem test_applyOr_keeps_VF :
    after 0x8011 (calm [(0, 0x0F), (1, 0xF0), (0xF, 0x07)]) (fun t => t.v 0 == 0xFF && t.v 0xF == 0x07) = true := by
  decide
-- A9
theorem test_applyAnd : after 0x8012 (calm [(0, 0x3C), (1, 0x0F)]) (fun t => t.v 0 == 0x0C) = true := by decide
-- A10, A11
theorem test_applyXor : after 0x8013 (calm [(0, 0x3C), (1, 0x0F)]) (fun t => t.v 0 == 0x33) = true := by decide
theorem test_applyXor_itself : after 0x8443 (calm [(4, 0x5A)]) (fun t => t.v 4 == 0x00) = true := by decide
-- A14, A16
theorem test_applyAdd_to_VF :
    after 0x8F14 (calm [(0xF, 0x80), (1, 0x80)]) (fun t => t.v 0xF == 0x01) = true := by decide
theorem test_applyAdd_from_VF :
    after 0x80F4 (calm [(0, 0x10), (0xF, 0xFF)]) (fun t => t.v 0 == 0x0F && t.v 0xF == 0x01) = true := by
  decide
-- A18 (S5), A20
theorem test_applySubtract_borrows :
    after 0x8125 (calm [(1, 0x05), (2, 0x0A)]) (fun t => t.v 1 == 0xFB && t.v 0xF == 0x00) = true := by decide
theorem test_applySubtract_equal :
    after 0x8125 (calm [(1, 0x05), (2, 0x05)]) (fun t => t.v 1 == 0x00 && t.v 0xF == 0x01) = true := by decide
-- A24, A25
theorem test_applyShiftRight_reads_Vy :
    after 0x8016 (calm [(0, 0xAA), (1, 0x01)]) (fun t => t.v 0 == 0x00 && t.v 0xF == 0x01) = true := by decide
theorem test_applyShiftRight_to_VF : after 0x8F16 (calm [(1, 0x02)]) (fun t => t.v 0xF == 0x00) = true := by
  decide
-- A28, A29
theorem test_applySubtractInv_borrows :
    after 0x8127 (calm [(1, 0x0A), (2, 0x05)]) (fun t => t.v 1 == 0xFB && t.v 0xF == 0x00) = true := by decide
theorem test_applySubtractInv :
    after 0x8127 (calm [(1, 0x05), (2, 0x0A)]) (fun t => t.v 1 == 0x05 && t.v 0xF == 0x01) = true := by decide
-- A30, A32
theorem test_applyShiftLeft :
    after 0x801E (calm [(1, 0x81)]) (fun t => t.v 0 == 0x02 && t.v 0xF == 0x01) = true := by decide
theorem test_applyShiftLeft_to_VF : after 0x8F1E (calm [(1, 0x80)]) (fun t => t.v 0xF == 0x01) = true := by
  decide
-- A33, A35
theorem test_randomize_masks :
    after 0xC30F (bench (envOf [] 0xA7 false 0) []) (fun t => t.v 3 == 0x07) = true := by decide
theorem test_randomize_to_VF :
    after 0xCFFF (bench (envOf [] 0xA7 false 0) []) (fun t => t.v 0xF == 0xA7) = true := by decide

/-! ## Framebuffer (section 2.4) -/

-- D10
theorem test_clearScreen :
    after 0x00E0 { calm [(0xF, 0x01)] with fb := Framebuffer.flip (Framebuffer.flip clearedFb 5 5) 63 31 }
      (fun t => lit [] [(5, 5), (63, 31)] t && t.v 0xF == 0x01) = true := by decide
-- D3: the sprite wraps on both axes (row 0 and row 2 of the glyph, and cells beside them)
theorem test_draw_wraps :
    after 0xD015 (calm [(0, 62), (1, 30)])
      (fun t => t.v 0xF == 0x00 &&
        lit [(62, 30), (63, 30), (0, 30), (1, 30), (62, 0), (1, 0)] [(61, 30), (2, 30), (63, 0), (0, 0)] t) = true := by
  decide +kernel
-- S10 (D1, D2): the second draw clears the display and reports the collision
theorem test_draw_twice :
    after 0xD015 (calm [])
      (fun t => t.v 0xF == 0x00 && lit [(0, 0), (3, 4)] [(1, 1)] t &&
        after 0xD015 { t with inputs := [quiet] } (fun u => u.v 0xF == 0x01 && lit [] [(0, 0), (1, 1), (3, 4)] u))
      = true := by decide +kernel

/-! ## Keys and timers (section 2.5) -/

-- K2, K5
theorem test_skipPressed_other_keys :
    after 0xE29E (bench (envOf [4, 6] 0x00 false 0) [(2, 0x05)]) (fun t => t.pc == 0x202) = true := by decide
theorem test_skipPressed_no_such_key :
    faultAfter 0xE29E (bench (envOf [0] 0x00 false 0) [(2, 0x10)]) = some (.invalidKeyIndex 0x200 0xE29E 0x10) := by
  decide
-- K3, K6
theorem test_skipNotPressed : after 0xE2A1 (calm [(2, 0x05)]) (fun t => t.pc == 0x204) = true := by decide
theorem test_skipNotPressed_key_F :
    after 0xEFA1 (bench (envOf [15] 0x00 false 0) [(0xF, 0x0F)]) (fun t => t.pc == 0x202) = true := by decide
-- K7; K21 with TIMER_READ_SLACK and the low draw
theorem test_getDelay_floors :
    after 0xF307 { calm [] with delay := 5 / 2 } (fun t => t.v 3 == 0x02) = true := by decide +kernel
theorem test_getDelay_slack :
    after 0xF507
      { bench (envOf [] 0x00 true 0) [] with delay := 31, cfg := { Config.default with timerReadSlack := true } }
      (fun t => t.v 5 == 30) = true := by decide
-- K9 and K13: the hold, then half a second of 60 ticks; K11: the lowest index
theorem test_waitKey_holds :
    after 0xF50A { bench (envOf [] 0x00 false (1 / 2)) [] with delay := 60 }
      (fun t => t.answer == .awaitingKey && t.pc == 0x200 && t.delay == 30) = true := by decide +kernel
theorem test_waitKey_lowest :
    after 0xF50A (bench (envOf [3, 9, 12] 0x00 false 0) []) (fun t => t.v 5 == 0x03 && t.pc == 0x202) = true := by
  decide
-- K14
theorem test_setDelay :
    after 0xF415 { calm [(4, 60)] with delay := 7 / 3 } (fun t => t.delay == 60) = true := by decide +kernel
-- K17
theorem test_setSound :
    after 0xF418 (calm [(4, 0x03)]) (fun t => t.sound == 3 && t.isSoundActive false) = true := by decide +kernel
-- K18, K19
theorem test_updateTimers_below_one_tick :
    (({ State.reset with sound := 1 }.updateTimers (1 / 120)).map fun (s : State) => (s.sound, s.isSoundActive false))
      = some (1 / 2, false) := by decide +kernel
theorem test_updateTimers_floors :
    (({ State.reset with delay := 2 }.updateTimers 10).map fun (s : State) => s.delay) = some 0 := by decide +kernel

/-! ## Index register and memory (section 2.6) -/

-- M2
theorem test_setIndex : after 0xAFFF (calm []) (fun t => t.I == 0xFFF) = true := by decide
-- M4, M5
theorem test_addToIndex_wraps :
    after 0xF21E { calm [(2, 0x01)] with I := 0xFFFF } (fun t => t.I == 0x0000 && t.v 0xF == 0x00) = true := by
  decide
theorem test_addToIndex_past_memory :
    after 0xF21E { calm [(2, 0x01)] with I := 0x0FFF } (fun t => t.I == 0x1000) = true := by decide
-- M6, M9
theorem test_loadGlyphAddress : after 0xF229 (calm [(2, 0x0A)]) (fun t => t.I == 0x032) = true := by decide
theorem test_loadGlyphAddress_unmasked : after 0xF229 (calm [(2, 0xFF)]) (fun t => t.I == 0x4FB) = true := by
  decide
-- M10, M26
theorem test_storeBCD :
    after 0xF033 { calm [(0, 254)] with I := 0x300 } (fun t => t.bytesAt 0x300 3 == [0x02, 0x05, 0x04]) = true := by
  decide
theorem test_storeBCD_in_font :
    faultAfter 0xF033 { calm [] with I := 0x02E } = some (.fontWrite 0x200 0xF033 0x02E) := by decide
-- M19, M21
theorem test_storeRegisterBlock_increments :
    after 0xF255
      { calm [(0, 0x01), (1, 0x02), (2, 0x03)] with I := 0x300, cfg := { Config.default with regblockIncI := true } }
      (fun t => t.bytesAt 0x300 3 == [0x01, 0x02, 0x03] && t.I == 0x303) = true := by decide
theorem test_storeRegisterBlock_to_top :
    after 0xFF55 { calm [(0xF, 0x0F)] with I := 0xFF0 }
      (fun t => t.byteAt 0xFFF == 0x0F && t.byteAt 0xFFE == 0x00) = true := by decide
-- M29, M31
theorem test_loadRegisterBlock_of_font :
    after 0xF365 (calm [(5, 0x33)]) (fun t => t.v 0 == 0xF0 && t.v 3 == 0x90 && t.v 5 == 0x33) = true := by
  decide
theorem test_loadRegisterBlock_past_memory :
    faultAfter 0xF165 { calm [] with I := 0xFFF } = some (.outOfBoundsMemoryAccess 0x200 (some 0xF165) 0x1000) := by
  decide

/-! ## Witnesses: for each statement with hypotheses, a state and operands that meet them, one per clause -/

/-- The calm bench with I at `i`. -/
def atIndex (i : Word) (regs : List (Nibble × Byte)) : State := { calm regs with I := i }

/-- The same with FONT_WRITE_POLICY = write. -/
def atIndexWriting (i : Word) : State :=
  { calm [] with I := i, cfg := { Config.default with fontWritePolicy := .write } }

theorem witness_DecodeInvertsEncode :
    wellFormed (.sys 0x0E1) = true ∧ wellFormed (.sys 0x0ED) = true ∧ wellFormed (.sys 0xFFF) = true ∧
      decode 0xFF65 = .instruction (.loadRegisterBlock 0xF) := by decide

/-- The word 00E0 meets its own row and the row of Sys; 0123 meets one row. -/
theorem witness_DecodeFollowsOpcodeTable :
    (opcodeTable.filter (rowMatches 0x00E0)).map (fun r => r.pattern) = [0x00E0, 0x0000] ∧
      (opcodeTable.filter (rowMatches 0x0123)).map (fun r => r.pattern) = [0x0000] := by decide

/-- One word per hypothesis, decoded and not decoded where both happen. -/
theorem witness_FixedSubFieldsAreChecked :
    (0x5230 : Word) >>> 12 = 0x5 ∧ (0x5231 : Word) >>> 12 = 0x5 ∧ (0x923F : Word) >>> 12 = 0x9 ∧
      (0x8018 : Word) >>> 12 = 0x8 ∧ (0x801E : Word) >>> 12 = 0x8 ∧ (0xE2A2 : Word) >>> 12 = 0xE ∧
      (0xF0FF : Word) >>> 12 = 0xF ∧ (0xD000 : Word) >>> 12 = 0xD ∧ (0x0000 : Word) >>> 12 = 0x0 ∧
      (0xCFFF : Word) >>> 12 ∉ ([0x5, 0x8, 0x9, 0xE, 0xF] : List Word) := by decide

/-- At the last pc a word can be fetched from. -/
theorem witness_StepRunsDecodedInstruction :
    let s := { calm [] with pc := 0xFFE }.withFetchWord 16 0x6001
    s.pc.toNat ≤ 0xFFE ∧ decode (s.fetch16 s.pc.toNat) = .instruction (.putImm 0x0 0x01) := by decide

/-- The three ranges of pc, where they meet. -/
theorem witness_FetchReadsWordOrFaults :
    ({ calm [] with pc := 0xFFE } : State).pc.toNat < 0xFFF ∧ ({ calm [] with pc := 0xFFF } : State).pc.toNat = 0xFFF ∧
      0xFFF < ({ calm [] with pc := 0x1000 } : State).pc.toNat := by decide

theorem witness_UnrecognizedWordFaults :
    ((calm []).withFetchWord 16 0x5231).fetch = .ok 0x5231 ∧ decode 0x5231 = .unrecognizedInstruction 0x5231 :=
  ⟨rfl, by decide⟩

/-- The second state has another delay timer, display and environment. -/
theorem witness_FaultsAreFinal :
    let s := (calm []).withFetchWord 16 0x00EE
    let s' : State := { s with delay := 1, fb := Framebuffer.flip s.fb 0 0, inputs := [] }
    step s = .fault (.stackUnderflow 0x200 0x00EE) ∧ s'.pc = s.pc ∧ s'.mem = s.mem ∧ s'.regs = s.regs ∧
      s'.I = s.I ∧ s'.stack = s.stack ∧ s'.cfg = s.cfg := ⟨rfl, rfl, rfl, rfl, rfl, rfl, rfl⟩

/-- Inputs that differ in the random byte and the draw, for a key skip. -/
theorem witness_InputsReachOnlyTheirReaders_keys :
    let s := calm [(2, 0x05)]
    let s' : State := { s with inputs := [envOf [] 0xA7 true 1], turn := 7 }
    readsKeys (.skipPressed 2) = true ∧ s'.env.keys = s.env.keys ∧ readsRandomByte (.skipPressed 2) = false ∧
      readsTimer (.skipPressed 2) = false := by decide

/-- Inputs that differ in the keys and the draw, for RND. -/
theorem witness_InputsReachOnlyTheirReaders_randomByte :
    let s := calm []
    let s' : State := { s with inputs := [envOf [1] 0x00 true 1], turn := 7 }
    readsRandomByte (.randomize 3 0x0F) = true ∧ s'.env.rngByte = s.env.rngByte ∧ readsKeys (.randomize 3 0x0F) = false ∧
      readsTimer (.randomize 3 0x0F) = false := by decide

/-- Inputs that differ in the keys and the random byte, for a timer read under TIMER_READ_SLACK. -/
theorem witness_InputsReachOnlyTheirReaders_draw :
    let s : State := { calm [] with cfg := { Config.default with timerReadSlack := true } }
    let s' : State := { s with inputs := [envOf [1] 0xA7 false 1], turn := 7 }
    readsTimer (.getDelay 3) = true ∧ s.cfg.timerReadSlack = true ∧ s'.env.readLow = s.env.readLow ∧
      readsKeys (.getDelay 3) = false ∧ readsRandomByte (.getDelay 3) = false := by decide

/-- At the reset pc and at the last pc of a run end. -/
theorem witness_RunEndLoopsForever :
    ((calm []).withFetchWord 16 0x1200).atRunEnd = true ∧
      ({ calm [] with pc := 0xFFE }.withFetchWord 16 0x1FFE).atRunEnd = true := by decide

/-- One fault of each code an instruction raises. -/
theorem witness_FaultsAreOfTheListedKinds :
    exec (.call 0x300) { calm [] with stack := List.replicate 16 0x202 } = .fault (.stackOverflow 0x200 0x2300) ∧
      exec .ret (calm []) = .fault (.stackUnderflow 0x200 0x00EE) ∧
      exec (.draw 0 1 3) (atIndex 0xFFE []) = .fault (.outOfBoundsMemoryAccess 0x200 (some 0xD013) 0x1000) ∧
      exec (.sys 0x123) (calm []) = .fault (.unimplementedSys 0x200 0x0123) ∧
      exec (.skipPressed 2) (calm [(2, 0x10)]) = .fault (.invalidKeyIndex 0x200 0xE29E 0x10) ∧
      exec (.storeBCD 0) (atIndex 0x04E []) = .fault (.fontWrite 0x200 0xF033 0x04E) :=
  ⟨rfl, rfl, rfl, rfl, rfl, rfl⟩

/-- A state that meets the three invariants, with a program word in memory, and goes on. -/
def running : State := (calm []).withFetchWord 16 0x6001

theorem running_goes_on : ∃ t, step running = .next t := ⟨_, rfl⟩

theorem zero_inRange : timerInRange 0 := ⟨le_refl _, by norm_num⟩

theorem witness_StepKeepsStateInvariant : StateInv running ∧ ∃ t, step running = .next t :=
  ⟨⟨by decide, by decide, zero_inRange, zero_inRange⟩, running_goes_on⟩

/-- The largest pc a cycle can start from, with the largest return address. -/
def runningAtTop : State := { calm [] with pc := 0xFFE, stack := [0x1000] }.withFetchWord 16 0x6001

theorem runningAtTop_goes_on : ∃ t, step runningAtTop = .next t := ⟨_, rfl⟩

theorem witness_StepKeepsPcBound : PcInv runningAtTop ∧ ∃ t, step runningAtTop = .next t :=
  ⟨⟨by decide, fun _ h => (List.mem_singleton.1 h).symm ▸ by decide⟩, runningAtTop_goes_on⟩

theorem witness_StepKeepsFontIntact :
    StateInv running ∧ running.cfg.fontWritePolicy = .fault ∧ FontIntact running ∧ ∃ t, step running = .next t :=
  ⟨witness_StepKeepsStateInvariant.1, rfl, by unfold FontIntact; decide +kernel, running_goes_on⟩

/-- A flag family with VF as its destination, a register instruction with another, and one that names VF. -/
theorem witness_FlagIsWrittenByItsFamiliesOnly :
    (writesFlag (.applyAdd 0xF 1) = true ∧ ∃ t, exec (.applyAdd 0xF 1) (calm []) = .next t) ∧
      (writesFlag (.applyOr 0xE 1) = false ∧ namesVf (.applyOr 0xE 1) = false ∧
        ∃ t, exec (.applyOr 0xE 1) (calm []) = .next t) ∧
      namesVf (.applyOr 0xF 1) = true :=
  ⟨⟨rfl, _, rfl⟩, ⟨rfl, rfl, _, rfl⟩, rfl⟩

/-- An instruction outside every writer's list, and the block store on both sides of REGBLOCK_INC_I. -/
theorem witness_StateChangesOnlyByItsWriters :
    (∃ t, exec (.putImm 0 1) (calm []) = .next t) ∧ writesIndex true (.putImm 0 1) = false ∧
      usesStack (.putImm 0 1) = false ∧ writesDisplay (.putImm 0 1) = false ∧ writesMemory (.putImm 0 1) = false ∧
      setsDelay (.putImm 0 1) = false ∧ setsSound (.putImm 0 1) = false ∧
      (∃ t, exec (.storeRegisterBlock 1) (atIndex 0x300 []) = .next t) ∧
      writesIndex false (.storeRegisterBlock 1) = false ∧ writesIndex true (.storeRegisterBlock 1) = true :=
  ⟨⟨_, rfl⟩, rfl, rfl, rfl, rfl, rfl, rfl, ⟨_, rfl⟩, rfl, rfl⟩

/-- R2, R3: the longest ROM and one byte more. -/
theorem witness_RomIsLoadedVerbatim :
    (List.replicate 3584 (0xAA : Byte)).length ≤ 3584 ∧ 3584 < (List.replicate 3585 (0xAA : Byte)).length := by
  rw [List.length_replicate, List.length_replicate]; omega

/-- A loaded program (P2's first words). -/
theorem witness_ConstructionMeetsInvariants :
    ∃ s, State.constructWithRom Config.default [0x60, 0xFE, 0xA3, 0x00] = some s := ⟨_, rfl⟩

/-- C9, C10: depth 15 and depth 16. -/
theorem witness_CallPushesReturnAddress :
    ({ calm [] with stack := List.replicate 15 0x202 } : State).stack.length < 16 ∧
      ({ calm [] with stack := List.replicate 16 0x202 } : State).stack.length = 16 := by decide

theorem witness_RetPopsReturnAddress :
    ({ calm [] with stack := [0x1000] } : State).stack = 0x1000 :: [] ∧ (calm []).stack = [] := ⟨rfl, rfl⟩

theorem witness_RetReturnsAfterCall : ∃ t, exec (.call 0x300) (calm []) = .next t := ⟨_, rfl⟩

theorem witness_SysAlwaysFaults :
    (0x00E1 : Word) &&& 0xF000 = 0x0000 ∧ (0x00E1 : Word) ≠ 0x00E0 ∧ (0x00E1 : Word) ≠ 0x00EE := by decide

/-- Both sides of the flag's register, for AddSetsCarryLast, SubtractSetsNotBorrowLast and
ShiftsReadVyAndSetShiftedOutBit. -/
theorem witness_FlagRegister : (0xE : Nibble) ≠ vf ∧ (0xF : Nibble) = vf ∧ (0x0 : Nibble) ≠ 0xE := by decide

/-- No rows at any I, rows up to the last byte of memory, and one row past it. -/
theorem witness_DrawPlotsByXorAndReportsCollision :
    (0x0 : Nibble) = 0x0 ∧ (atIndex 0xFF1 []).I.toNat + (0xF : Nibble).toNat ≤ 0x1000 ∧
      ((0xF : Nibble) ≠ 0x0 ∧ 0x1000 < (atIndex 0xFF2 []).I.toNat + (0xF : Nibble).toNat) := by decide

/-- Glyph 0 at (63, 31): its leftmost bit lands on (63, 31) and the next on (0, 31), and (1, 30) is not covered. -/
theorem witness_SpriteCovers :
    SpriteCovers (calm [(0, 63), (1, 31)]) 0 1 5 63 31 ∧ SpriteCovers (calm [(0, 63), (1, 31)]) 0 1 5 0 31 ∧
      ¬ SpriteCovers (calm [(0, 63), (1, 31)]) 0 1 5 1 30 := by
  unfold SpriteCovers SpriteBit; decide

/-- A lit cell under the sprite, and unlit cells under it. -/
theorem witness_DrawCollision :
    (∃ c r, SpriteCovers { calm [] with fb := Framebuffer.flip clearedFb 0 0 } 0 1 5 c r ∧
      ({ calm [] with fb := Framebuffer.flip clearedFb 0 0 } : State).pixel c r = true) ∧
    (∀ c r, SpriteCovers (calm []) 0 1 5 c r → (calm []).pixel c r = false) :=
  ⟨⟨0, 0, by unfold SpriteCovers SpriteBit; decide, by decide⟩, fun c r _ => Framebuffer.cell_clearedFb c r⟩

theorem witness_DrawTwiceRestoresDisplay :
    (0x0 : Nibble) ≠ vf ∧ (0x1 : Nibble) ≠ vf ∧ (∃ t, exec (.draw 0 1 5) (calm []) = .next t) ∧
      (∀ c r, SpriteCovers (calm []) 0 1 5 c r → (calm []).pixel c r = false) ∧
      (∃ sy < (5 : Nibble).toNat, ∃ sx < 8, SpriteBit (calm []) sy sx) ∧
      (∀ sy < (5 : Nibble).toNat, ∀ sx < 8, ¬ SpriteBit (atIndex 0x300 []) sy sx) :=
  ⟨by decide, by decide, ⟨_, rfl⟩, witness_DrawCollision.2, ⟨0, by decide, 0, by decide, by unfold SpriteBit; decide⟩,
    by unfold SpriteBit; decide⟩

/-- The last key and the first value that names none. -/
theorem witness_KeySkipsTestTheSnapshot :
    ((calm [(2, 0x0F)]).v 2).toNat < 16 ∧ 16 ≤ ((calm [(2, 0x10)]).v 2).toNat := by decide

/-- TIMER_READ_SLACK with the low draw at exactly one tick: the least accumulator whose read the draw lowers. -/
def slackLow : State :=
  { bench (envOf [] 0x00 true 0) [] with delay := 1, cfg := { Config.default with timerReadSlack := true } }

/-- The ends of a timer's range; the low read at exactly one tick, and the three ways to the exact read (no slack, the
high draw, no whole tick). -/
theorem witness_GetDelayReadsWholeTicks :
    timerInRange ({ calm [] with delay := 255 } : State).delay ∧ timerInRange (calm []).delay ∧
      (timerInRange slackLow.delay ∧ slackLow.cfg.timerReadSlack = true ∧ slackLow.env.readLow = true ∧
        1 ≤ slackLow.delay.floor) ∧
      (calm []).cfg.timerReadSlack = false ∧ (calm []).env.readLow = false ∧
      ¬ 1 ≤ ({ slackLow with delay := 1 / 2 } : State).delay.floor := by
  refine ⟨⟨?_, ?_⟩, zero_inRange, ⟨⟨?_, ?_⟩, rfl, rfl, by decide +kernel⟩, rfl, rfl, by decide +kernel⟩ <;>
    norm_num [slackLow]

/-- No key, the lowest key, and the highest alone. -/
theorem witness_WaitKeyTakesLowestKeyOrHolds :
    (∀ k (h : k < 16), (calm []).env.keys[k] = false) ∧
      (bench (envOf [0, 5] 0x00 false 0) []).env.keys[0] = true ∧
      (bench (envOf [15] 0x00 false 0) []).env.keys[15] = true ∧
      (∀ j (hj : j < 15), (bench (envOf [15] 0x00 false 0) []).env.keys[j] = false) := by
  decide

theorem witness_SetTimersStoreWholeTicks : (calm []).cfg.timerReadSlack = false := rfl

theorem witness_UpdateTimersStepsBoth : ((-1 : Rat) / 120 < 0) ∧ (0 : Rat) ≤ 0 := by norm_num

theorem witness_UpdateTimersIsAdditive : (0 : Rat) ≤ 0 ∧ (0 : Rat) ≤ 1 / 120 := by norm_num

/-- Exactly one tick. -/
theorem witness_SoundIsActiveFromOneTick :
    timerInRange ({ calm [] with sound := 1 } : State).sound ∧ (calm []).cfg.timerReadSlack = false :=
  ⟨by constructor <;> norm_num, rfl⟩

theorem witness_DisplayGetReadsACell : (63 < 64 ∧ 31 < 32) ∧ (63 < 64 ∨ 31 < 0) ∧ (63 < 0 ∨ 31 < 32) := by decide

/-- Past memory by one byte; the last font address; the first address after it; the font under policy write; the last
three bytes of memory. -/
theorem witness_StoreBcdWritesDecimalDigits :
    Memory.wf Config.default.font (calm []).mem ∧
      0xFFF < (atIndex 0xFFE []).I.toNat + 2 ∧
      ((atIndex 0x04F []).I.toNat + 2 ≤ 0xFFF ∧ (atIndex 0x04F []).cfg.fontWritePolicy = .fault ∧
        (atIndex 0x04F []).I.toNat ≤ 0x04F) ∧
      0x04F < (atIndex 0x050 []).I.toNat ∧ (atIndexWriting 0x000).cfg.fontWritePolicy = .write ∧
      ((atIndex 0xFFD []).I.toNat + 2 ≤ 0xFFF ∧ 0x04F < (atIndex 0xFFD []).I.toNat) := by decide

/-- The same for all sixteen registers. -/
theorem witness_StoreRegisterBlockWritesRegisters :
    Memory.wf Config.default.font (calm []).mem ∧
      0xFFF < (atIndex 0xFF1 []).I.toNat + (0xF : Nibble).toNat ∧
      ((atIndex 0x04F []).I.toNat + (0xF : Nibble).toNat ≤ 0xFFF ∧ (atIndex 0x04F []).cfg.fontWritePolicy = .fault ∧
        (atIndex 0x04F []).I.toNat ≤ 0x04F) ∧
      0x04F < (atIndex 0x050 []).I.toNat ∧ (atIndexWriting 0x000).cfg.fontWritePolicy = .write ∧
      ((atIndex 0xFF0 []).I.toNat + (0xF : Nibble).toNat ≤ 0xFFF ∧ 0x04F < (atIndex 0xFF0 []).I.toNat) := by decide

theorem witness_LoadRegisterBlockReadsMemory :
    0xFFF < (atIndex 0xFF1 []).I.toNat + (0xF : Nibble).toNat ∧
      (atIndex 0xFF0 []).I.toNat + (0xF : Nibble).toNat ≤ 0xFFF := by decide

theorem witness_BlockLoadUndoesBlockStore :
    Memory.wf (atIndex 0xFF0 []).cfg.font (atIndex 0xFF0 []).mem ∧
      ∃ t, exec (.storeRegisterBlock 0xF) (atIndex 0xFF0 [(0xF, 0x0F)]) = .next t := ⟨by decide, _, rfl⟩

/-- The store puts V0, V1 on the word that follows it (P6). -/
theorem witness_SelfModifiedCodeIsFetched :
    let s := atIndex 0x202 [(0, 0x6A), (1, 0x77)]
    Memory.wf s.cfg.font s.mem ∧ (0 : Nibble) < 1 ∧
      ∃ t, exec (.storeRegisterBlock 1) s = .next t ∧ t.pc.toNat = s.I.toNat + (0 : Nibble).toNat :=
  ⟨by decide, by decide, _, rfl, by decide⟩

end Sys2Proof.Machine.Tests
end

section
/-! PROOFS. No instruction is refused: none of the ends an instruction can have is a refusal, and every instruction has
one of these ends. -/

namespace Sys2Proof.Machine

/-! ## The ends of an instruction -/

/-- Fault entry stops the machine with a fault, not with a refusal (R238). -/
theorem raise_ne_refused (f : Fault) (r : Refusal) : raise f ≠ .refused r := by simp [raise]

theorem State.jumpTo_ne_refused (s : State) (w : Word) (r : Refusal) : s.jumpTo w ≠ .refused r := by
  simp [State.jumpTo]

theorem State.complete_ne_refused (s : State) (r : Refusal) : s.complete ≠ .refused r :=
  s.jumpTo_ne_refused s.nextPc r

theorem State.skipIf_ne_refused (s : State) (c : Bool) (r : Refusal) : s.skipIf c ≠ .refused r :=
  s.jumpTo_ne_refused _ r

/-! ## The instructions with a check -/

theorem execRet_ne_refused (s : State) (r : Refusal) : execRet s ≠ .refused r := by
  unfold execRet
  split
  · exact raise_ne_refused _ r
  · exact State.jumpTo_ne_refused _ _ r

theorem execCall_ne_refused (nnn : Addr12) (s : State) (r : Refusal) : execCall nnn s ≠ .refused r := by
  unfold execCall
  split
  · exact raise_ne_refused _ r
  · exact State.jumpTo_ne_refused _ _ r

theorem execDraw_ne_refused (x y n : Nibble) (s : State) (r : Refusal) : execDraw x y n s ≠ .refused r := by
  unfold execDraw
  split
  · exact raise_ne_refused _ r
  · exact State.complete_ne_refused _ r

theorem execSkipPressed_ne_refused (x : Nibble) (s : State) (r : Refusal) : execSkipPressed x s ≠ .refused r := by
  unfold execSkipPressed
  split
  · exact State.skipIf_ne_refused _ _ r
  · exact raise_ne_refused _ r

theorem execSkipNotPressed_ne_refused (x : Nibble) (s : State) (r : Refusal) :
    execSkipNotPressed x s ≠ .refused r := by
  unfold execSkipNotPressed
  split
  · exact State.skipIf_ne_refused _ _ r
  · exact raise_ne_refused _ r

theorem execWaitKey_ne_refused (x : Nibble) (s : State) (r : Refusal) : execWaitKey x s ≠ .refused r := by
  simp [execWaitKey]

theorem execStoreBCD_ne_refused (x : Nibble) (s : State) (r : Refusal) : execStoreBCD x s ≠ .refused r := by
  unfold execStoreBCD
  split
  · exact raise_ne_refused _ r
  · exact State.complete_ne_refused _ r

theorem execStoreRegisterBlock_ne_refused (x : Nibble) (s : State) (r : Refusal) :
    execStoreRegisterBlock x s ≠ .refused r := by
  unfold execStoreRegisterBlock
  split
  · exact raise_ne_refused _ r
  · exact State.complete_ne_refused _ r

theorem execLoadRegisterBlock_ne_refused (x : Nibble) (s : State) (r : Refusal) :
    execLoadRegisterBlock x s ≠ .refused r := by
  unfold execLoadRegisterBlock
  split
  · exact raise_ne_refused _ r
  · exact State.complete_ne_refused _ r

/-! ## The dispatch -/

/-- The instructions without a check, grouped by the end they have; each of the others by its own lemma. -/
theorem exec_ne_refused (i : Instr) (s : State) (r : Refusal) : exec i s ≠ .refused r := by
  cases i
  case sys => exact raise_ne_refused _ r
  case jump | jumpPlusV0 => exact State.jumpTo_ne_refused _ _ r
  case skipEqImm | skipNeImm | skipEqReg | skipNeReg => exact State.skipIf_ne_refused _ _ r
  case clearScreen | putImm | addImm | applyId | applyOr | applyAnd | applyXor | applyAdd | applySubtract
      | applyShiftRight | applySubtractInv | applyShiftLeft | setIndex | randomize | getDelay | setDelay | setSound
      | addToIndex | loadGlyphAddress =>
    exact State.complete_ne_refused _ r
  case ret => exact execRet_ne_refused s r
  case call nnn => exact execCall_ne_refused nnn s r
  case draw x y n => exact execDraw_ne_refused x y n s r
  case skipPressed x => exact execSkipPressed_ne_refused x s r
  case skipNotPressed x => exact execSkipNotPressed_ne_refused x s r
  case waitKey x => exact execWaitKey_ne_refused x s r
  case storeBCD x => exact execStoreBCD_ne_refused x s r
  case storeRegisterBlock x => exact execStoreRegisterBlock_ne_refused x s r
  case loadRegisterBlock x => exact execLoadRegisterBlock_ne_refused x s r

/-- Settles O12: every arm of the dispatch completes, holds or faults. -/
theorem noInstructionIsRefused : Obligations.NoInstructionIsRefused := exec_ne_refused

end Sys2Proof.Machine
end

section
/-! PROOFS. What an instruction that goes on can have written and where it can have gone, said once for every
instruction. -/

namespace Sys2Proof.Machine

/-! ## What an instruction writes -/

/-- The states an instruction can have made when its cycle ends, before pc and the answer are set: one constructor per
kind of write, with the roles of the instructions that do it. -/
inductive Writes (s : State) (i : Instr) : State → Prop
  | nothing : Writes s i s
  | push (hi : usesStack i = true) (hlt : s.stack.length < stackDepth) :
      Writes s i (s.setStack (s.nextPc :: s.stack))
  | pop (v : Word) (rest : List Word) (hi : usesStack i = true) (hs : s.stack = v :: rest) :
      Writes s i (s.setStack rest)
  | register (x : Nibble) (b : Byte) (hi : namesVf i = (x == vf)) : Writes s i (s.setV x b)
  | resultAndFlag (x : Nibble) (r : Byte) (flag : Bool) (hi : writesFlag i = true) :
      Writes s i (s.setResultAndFlag x r flag)
  | display (fb : Framebuffer) (hi : writesDisplay i = true) : Writes s i (s.setFb fb)
  | displayAndFlag (fb : Framebuffer) (flag : Bool) (hd : writesDisplay i = true) (hf : writesFlag i = true) :
      Writes s i ((s.setFb fb).setFlag flag)
  | delay (t : Byte) (hi : setsDelay i = true) : Writes s i (s.setDelay t)
  | sound (t : Byte) (hi : setsSound i = true) : Writes s i (s.setSound t)
  | index (w : Word) (hi : writesIndex s.cfg.regblockIncI i = true) : Writes s i (s.setI w)
  | store (bs : List Byte) (w : Word) (hi : writesMemory i = true) (hbs : s.base + bs.length ≤ memSize)
      (hw : w = s.I ∨ writesIndex s.cfg.regblockIncI i = true) : Writes s i ((s.storeBytes s.base bs).setI w)
  | load (x : Nibble) (w : Word) (hi : namesVf i = (x == vf))
      (hw : w = s.I ∨ writesIndex s.cfg.regblockIncI i = true) : Writes s i ((s.loadV (s.memoryBlock x)).setI w)

/-- Where pc can be when the cycle ends: held (R195), at the next word or the one after it (R104, R129), at a jump's or
a call's target (R122, R123, R128), or at a return address (R120). -/
inductive Target (s : State) : Word → Prop
  | hold : Target s s.pc
  | next : Target s s.nextPc
  | skip : Target s (s.nextPc + 2)
  | jump (nnn : Addr12) : Target s (zextAddr nnn)
  | jumpPlusV0 (nnn : Addr12) : Target s (s.targetPlusV0 nnn)
  | returnTo (v : Word) (hv : v ∈ s.stack) : Target s v

/-- The next state of an instruction: what it wrote, then pc and the answer to the host. -/
def Leaves (s : State) (i : Instr) (t : State) : Prop :=
  ∃ u pc answer, Writes s i u ∧ Target s pc ∧ t = { u with pc := pc, answer := answer }

theorem Leaves.of_jumpTo {s u t : State} {i : Instr} {w : Word} (h : u.jumpTo w = .next t) (hu : Writes s i u)
    (hw : Target s w) : Leaves s i t :=
  ⟨u, w, .ok, hu, hw, State.jumpTo_eq_next.1 h⟩

theorem Leaves.of_complete {s u t : State} {i : Instr} (h : u.complete = .next t) (hpc : u.pc = s.pc)
    (hu : Writes s i u) : Leaves s i t :=
  .of_jumpTo h hu (by simpa only [State.nextPc, hpc] using Target.next)

theorem Leaves.of_skipIf {s t : State} {i : Instr} {c : Bool} (h : s.skipIf c = .next t) : Leaves s i t := by
  refine .of_jumpTo h .nothing ?_
  cases c
  · exact .next
  · exact .skip

theorem State.indexAfterBlock_eq_or (s : State) (x : Nibble) :
    s.indexAfterBlock x = s.I ∨ s.cfg.regblockIncI = true := by
  cases h : s.cfg.regblockIncI <;> simp [State.indexAfterBlock, h]

/-- Every instruction that goes on, by its constructor. -/
theorem exec_leaves {i : Instr} {s t : State} (h : exec i s = .next t) : Leaves s i t := by
  cases i
  case sys => exact absurd h (raise_ne_next _ t)
  case clearScreen => exact .of_complete h rfl (.display _ rfl)
  case ret =>
    obtain ⟨v, rest, hs, rfl⟩ := execRet_eq_next.1 h
    exact ⟨_, _, _, .pop v rest rfl hs, .returnTo v (by simp [hs]), rfl⟩
  case call nnn =>
    obtain ⟨hlt, rfl⟩ := execCall_eq_next.1 h
    exact ⟨_, _, _, .push rfl hlt, .jump nnn, rfl⟩
  case jump nnn => exact .of_jumpTo h .nothing (.jump nnn)
  case jumpPlusV0 nnn => exact .of_jumpTo h .nothing (.jumpPlusV0 nnn)
  case skipEqImm | skipNeImm | skipEqReg | skipNeReg => exact .of_skipIf h
  case skipPressed x =>
    obtain ⟨hk, -⟩ := execSkipPressed_eq_next.1 h
    exact .of_skipIf (by simpa only [exec, execSkipPressed, if_pos hk] using h)
  case skipNotPressed x =>
    obtain ⟨hk, -⟩ := execSkipNotPressed_eq_next.1 h
    exact .of_skipIf (by simpa only [exec, execSkipNotPressed, if_pos hk] using h)
  case putImm x _ | addImm x _ | applyId x _ | applyOr x _ | applyAnd x _ | applyXor x _ | randomize x _ | getDelay x =>
    exact .of_complete h rfl (.register x _ rfl)
  case applyAdd x _ | applySubtract x _ | applyShiftRight x _ | applySubtractInv x _ | applyShiftLeft x _ =>
    exact .of_complete h rfl (.resultAndFlag x _ _ rfl)
  case draw x y n =>
    obtain ⟨-, rfl⟩ := execDraw_eq_next.1 h
    exact ⟨_, _, _, .displayAndFlag _ _ rfl rfl, .next, rfl⟩
  case waitKey x =>
    obtain ⟨-, rfl⟩ | ⟨k, -, rfl⟩ := execWaitKey_eq_next.1 h
    · exact ⟨s, _, _, .nothing, .hold, rfl⟩
    · exact ⟨_, _, _, .register x _ rfl, .next, rfl⟩
  case setDelay => exact .of_complete h rfl (.delay _ rfl)
  case setSound => exact .of_complete h rfl (.sound _ rfl)
  case setIndex | addToIndex | loadGlyphAddress => exact .of_complete h rfl (.index _ rfl)
  case storeBCD x =>
    obtain ⟨hf, rfl⟩ := execStoreBCD_eq_next.1 h
    have hbs := ((State.writeFault?_eq_none (by decide)).1 hf).1
    exact ⟨_, _, _, .store (bcdDigits (s.v x)) s.I rfl hbs (.inl rfl), .next, rfl⟩
  case storeRegisterBlock x =>
    obtain ⟨hf, rfl⟩ := execStoreRegisterBlock_eq_next.1 h
    have hbs := ((State.writeFault?_eq_none (Nat.succ_ne_zero _)).1 hf).1
    exact ⟨_, _, _, .store _ _ rfl (by rwa [State.length_registerBlock]) (s.indexAfterBlock_eq_or x), .next, rfl⟩
  case loadRegisterBlock x =>
    obtain ⟨-, rfl⟩ := execLoadRegisterBlock_eq_next.1 h
    exact ⟨_, _, _, .load x _ rfl (s.indexAfterBlock_eq_or x), .next, rfl⟩

end Sys2Proof.Machine
end

section
/-! PROOFS. Each piece of state has its writers (10_state.md), and VF is written by the flag families or as a named
destination (R23, R24). -/

namespace Sys2Proof.Machine

/-! ## The writers of each piece of state -/

section Writers

variable {s u : State} {i : Instr}

theorem Writes.I_eq (hu : Writes s i u) (hi : writesIndex s.cfg.regblockIncI i = false) : u.I = s.I := by
  cases hu
  case index h => cases h.symm.trans hi
  case store hw => exact hw.resolve_right (by simp [hi])
  case load hw => exact hw.resolve_right (by simp [hi])
  all_goals rfl

theorem Writes.stack_eq (hu : Writes s i u) (hi : usesStack i = false) : u.stack = s.stack := by
  cases hu
  case push h _ => cases h.symm.trans hi
  case pop h _ => cases h.symm.trans hi
  all_goals rfl

theorem Writes.fb_eq (hu : Writes s i u) (hi : writesDisplay i = false) : u.fb = s.fb := by
  cases hu
  case display h => cases h.symm.trans hi
  case displayAndFlag h _ => cases h.symm.trans hi
  all_goals rfl

theorem Writes.mem_eq (hu : Writes s i u) (hi : writesMemory i = false) : u.mem = s.mem := by
  cases hu
  case store h _ _ => cases h.symm.trans hi
  all_goals rfl

theorem Writes.delay_eq (hu : Writes s i u) (hi : setsDelay i = false) : u.delay = s.delay := by
  cases hu
  case delay h => cases h.symm.trans hi
  all_goals rfl

theorem Writes.sound_eq (hu : Writes s i u) (hi : setsSound i = false) : u.sound = s.sound := by
  cases hu
  case sound h => cases h.symm.trans hi
  all_goals rfl

theorem Writes.sameRun (hu : Writes s i u) : SameRun s u := by
  cases hu <;> exact ⟨rfl, rfl, rfl⟩

end Writers

/-- Settles O18: each piece by the kinds of write that reach it. -/
theorem stateChangesOnlyByItsWriters : Obligations.StateChangesOnlyByItsWriters := by
  intro i s t h
  obtain ⟨u, pc, answer, hu, -, rfl⟩ := exec_leaves h
  refine ⟨hu.I_eq, hu.stack_eq, fun hi c r => ?_, fun hi a => ?_, hu.delay_eq, hu.sound_eq, hu.sameRun⟩
  · simp only [State.pixel, hu.fb_eq hi]
  · exact State.byteAt_congr (hu.mem_eq hi) hu.sameRun.1 a

/-! ## The flag -/

theorem boolToU8_eq_zero_or_one (b : Bool) : boolToU8 b = 0x00 ∨ boolToU8 b = 0x01 := by
  cases b
  · exact .inl rfl
  · exact .inr rfl

/-- VF is the last register, so a block load reaches it only as its own destination (R24). -/
theorem vf_le_iff (x : Nibble) : vf ≤ x ↔ x = vf := by
  revert x; decide

/-- The last write of a flag family is the flag (R23). -/
theorem exec_of_writesFlag {i : Instr} {s t : State} (hi : writesFlag i = true) (h : exec i s = .next t) :
    ∃ u flag, t = (State.setFlag u flag).arriveAt s.nextPc := by
  cases i
  case applyAdd | applySubtract | applyShiftRight | applySubtractInv | applyShiftLeft =>
    obtain rfl := State.complete_eq_next.1 h
    exact ⟨_, _, rfl⟩
  case draw =>
    obtain ⟨-, rfl⟩ := execDraw_eq_next.1 h
    exact ⟨_, _, rfl⟩
  all_goals cases hi

/-- A write by no flag family reaches VF only as the destination it names. -/
theorem Writes.v_vf_eq {s u : State} {i : Instr} (hu : Writes s i u) (hf : writesFlag i = false)
    (hn : namesVf i = false) : u.v vf = s.v vf := by
  cases hu
  case register x b hi =>
    have hx : vf ≠ x := fun hx => by simp [hi, hx] at hn
    rw [State.v_setV, if_neg hx]
  case load x w hi hw =>
    have hx : ¬ vf ≤ x := fun hx => by simp [hi, (vf_le_iff x).1 hx] at hn
    exact (State.v_loadMemoryBlock s x vf).trans (if_neg hx)
  case resultAndFlag hi => simp [hi] at hf
  case displayAndFlag hi => simp [hi] at hf
  all_goals rfl

/-- Settles O17: the flag families by their last write, the others by the kinds of write that reach VF. -/
theorem flagIsWrittenByItsFamiliesOnly : Obligations.FlagIsWrittenByItsFamiliesOnly := by
  refine fun i s t h => ⟨fun hi => ?_, fun hf hn => ?_⟩
  · obtain ⟨u, flag, rfl⟩ := exec_of_writesFlag hi h
    have hv : ((u.setFlag flag).arriveAt s.nextPc).v vf = boolToU8 flag :=
      (State.v_setFlag u flag vf).trans (if_pos rfl)
    rw [hv]
    exact boolToU8_eq_zero_or_one flag
  · obtain ⟨u, pc, answer, hu, -, rfl⟩ := exec_leaves h
    exact hu.v_vf_eq hf hn

end Sys2Proof.Machine
end

section
/-! PROOFS. The invariants of a step: memory, stack depth and timers (R28, R30, R50), pc and return addresses (R27). -/

namespace Sys2Proof.Machine

/-! ## Memory, stack depth and timers -/

/-- Every kind of write keeps the invariant: a store ends inside memory, a push finds room, a timer is set to a byte. -/
theorem Writes.keeps_stateInv {s u : State} {i : Instr} (hu : Writes s i u) (hs : StateInv s) : StateInv u := by
  obtain ⟨hmem, hstack, hdelay, hsound⟩ := hs
  cases hu
  case push hi hlt => exact ⟨hmem, hlt, hdelay, hsound⟩
  case pop v rest hi hs =>
    have hrest : rest.length ≤ stackDepth := by
      rw [hs, List.length_cons] at hstack
      omega
    exact ⟨hmem, hrest, hdelay, hsound⟩
  case delay b hi => exact ⟨hmem, hstack, timerSet_inRange b, hsound⟩
  case sound b hi => exact ⟨hmem, hstack, hdelay, timerSet_inRange b⟩
  case store bs w hi hbs hw => exact ⟨Memory.wf_writeBytes _ bs _ _ hmem hbs, hstack, hdelay, hsound⟩
  all_goals exact ⟨hmem, hstack, hdelay, hsound⟩

theorem exec_keeps_stateInv {i : Instr} {s t : State} (h : exec i s = .next t) (hs : StateInv s) : StateInv t := by
  obtain ⟨u, pc, answer, hu, -, rfl⟩ := exec_leaves h
  obtain ⟨hmem, hstack, hdelay, hsound⟩ := hu.keeps_stateInv hs
  exact ⟨hmem, hstack, hdelay, hsound⟩

theorem State.hostTurn_keeps_stateInv {s : State} (hs : StateInv s) : StateInv s.hostTurn :=
  ⟨hs.mem, hs.stack, timerOverTurn_inRange _ _ hs.delay, timerOverTurn_inRange _ _ hs.sound⟩

/-- Settles O13: the instruction keeps the invariant, and so does the host's turn. -/
theorem stepKeepsStateInvariant : Obligations.StepKeepsStateInvariant := by
  intro s t hs h
  obtain ⟨w, i, u, -, -, hu, rfl⟩ := step_eq_next.1 h
  exact State.hostTurn_keeps_stateInv (exec_keeps_stateInv hu hs)

/-! ## pc and the return addresses -/

theorem zextAddr_toNat_le (nnn : Addr12) : (zextAddr nnn).toNat ≤ 0xFFF := by
  have := nnn.isLt
  simp only [zextAddr, BitVec.toNat_setWidth]
  omega

theorem State.targetPlusV0_toNat_le (s : State) (nnn : Addr12) : (s.targetPlusV0 nnn).toNat ≤ 0x10FE := by
  have hn := zextAddr_toNat_le nnn
  have hb : (zextByte (s.v 0x0)).toNat ≤ 0xFF := by
    have := (s.v 0x0).isLt
    simp only [zextByte, BitVec.toNat_setWidth]
    omega
  simp only [State.targetPlusV0, BitVec.toNat_add]
  omega

/-- A cycle that fetched does not wrap at the next word (R27). -/
theorem State.nextPc_toNat {s : State} (hf : s.pc.toNat + 2 ≤ 0x1000) : s.nextPc.toNat = s.pc.toNat + 2 := by
  unfold State.nextPc
  bv_omega

theorem Target.toNat_le {s : State} {w : Word} (hw : Target s w) (hf : s.pc.toNat + 2 ≤ 0x1000) (hs : PcInv s) :
    w.toNat ≤ 0x10FE := by
  have hnext := State.nextPc_toNat hf
  cases hw
  case hold => exact hs.pc
  case next => omega
  case skip => bv_omega
  case jump nnn => exact (zextAddr_toNat_le nnn).trans (by decide)
  case jumpPlusV0 nnn => exact s.targetPlusV0_toNat_le nnn
  case returnTo hv => exact (hs.stack w hv).trans (by decide)

theorem Writes.stack_toNat_le {s u : State} {i : Instr} (hu : Writes s i u) (hf : s.pc.toNat + 2 ≤ 0x1000)
    (hs : PcInv s) : ∀ v ∈ u.stack, v.toNat ≤ 0x1000 := by
  cases hu
  case push hi hlt =>
    have hnext : s.nextPc.toNat ≤ 0x1000 := (State.nextPc_toNat hf).trans_le hf
    exact List.forall_mem_cons.2 ⟨hnext, hs.stack⟩
  case pop v rest hi hst => exact fun v hv => hs.stack v (hst ▸ List.mem_cons_of_mem _ hv)
  all_goals exact hs.stack

/-- Settles O14: a cycle that goes on has fetched, so pc is at most 0xFFE before it. -/
theorem stepKeepsPcBound : Obligations.StepKeepsPcBound := by
  intro s t hs h
  obtain ⟨w, i, u, hfetch, -, hu, rfl⟩ := step_eq_next.1 h
  obtain ⟨hf, -⟩ := State.fetch_eq_ok.1 hfetch
  obtain ⟨u, pc, answer, hwrites, htarget, rfl⟩ := exec_leaves hu
  exact ⟨htarget.toNat_le hf hs, hwrites.stack_toNat_le hf hs⟩

end Sys2Proof.Machine
end

section
/-! PROOFS. The environments of the run reach an instruction through the key snapshot, the random byte and the draw of
a timer read only: what an instruction answers does not depend on the rest of the host's inputs. -/

namespace Sys2Proof.Machine

/-- The state with other environments to come and another cycle counter. -/
def State.withRunInputs (s : State) (inputs : List Env) (turn : Nat) : State :=
  { s with inputs := inputs, turn := turn }

section Inputs

variable (s : State) (inputs : List Env) (turn : Nat)

/-! ## What the inputs of the run leave as it was -/

@[simp] theorem State.withRunInputs_stack : (s.withRunInputs inputs turn).stack = s.stack := rfl
@[simp] theorem State.withRunInputs_delay : (s.withRunInputs inputs turn).delay = s.delay := rfl
@[simp] theorem State.withRunInputs_fb : (s.withRunInputs inputs turn).fb = s.fb := rfl
@[simp] theorem State.withRunInputs_cfg : (s.withRunInputs inputs turn).cfg = s.cfg := rfl
@[simp] theorem State.withRunInputs_nextPc : (s.withRunInputs inputs turn).nextPc = s.nextPc := rfl
@[simp] theorem State.withRunInputs_base : (s.withRunInputs inputs turn).base = s.base := rfl
@[simp] theorem State.withRunInputs_v (r : Nibble) : (s.withRunInputs inputs turn).v r = s.v r := rfl
@[simp] theorem State.withRunInputs_byteAt (a : Nat) : (s.withRunInputs inputs turn).byteAt a = s.byteAt a := rfl

@[simp] theorem State.withRunInputs_readFault? (i : Instr) (base len : Nat) :
    (s.withRunInputs inputs turn).readFault? i base len = s.readFault? i base len := rfl

@[simp] theorem State.withRunInputs_writeFault? (i : Instr) (base len : Nat) :
    (s.withRunInputs inputs turn).writeFault? i base len = s.writeFault? i base len := rfl

@[simp] theorem State.withRunInputs_bytesAt (a n : Nat) :
    (s.withRunInputs inputs turn).bytesAt a n = s.bytesAt a n := by
  induction n generalizing a with
  | zero => rfl
  | succ n ih => simp only [State.bytesAt, ih, State.withRunInputs_byteAt]

@[simp] theorem State.withRunInputs_spriteRows (n : Nibble) :
    (s.withRunInputs inputs turn).spriteRows n = s.spriteRows n :=
  s.withRunInputs_bytesAt inputs turn s.base n.toNat

@[simp] theorem State.withRunInputs_memoryBlock (x : Nibble) :
    (s.withRunInputs inputs turn).memoryBlock x = s.memoryBlock x :=
  s.withRunInputs_bytesAt inputs turn s.base (blockLength x)

/-! ## The readers of the environment -/

theorem execSkipPressed_withRunInputs (x : Nibble) (h : (s.withRunInputs inputs turn).env.keys = s.env.keys) :
    execSkipPressed x (s.withRunInputs inputs turn) = withInputs inputs turn (execSkipPressed x s) := by
  simp only [execSkipPressed, State.keyPressed, State.withRunInputs_v, h]
  split <;> rfl

theorem execSkipNotPressed_withRunInputs (x : Nibble) (h : (s.withRunInputs inputs turn).env.keys = s.env.keys) :
    execSkipNotPressed x (s.withRunInputs inputs turn) = withInputs inputs turn (execSkipNotPressed x s) := by
  simp only [execSkipNotPressed, State.keyPressed, State.withRunInputs_v, h]
  split <;> rfl

theorem execWaitKey_withRunInputs (x : Nibble) (h : (s.withRunInputs inputs turn).env.keys = s.env.keys) :
    execWaitKey x (s.withRunInputs inputs turn) = withInputs inputs turn (execWaitKey x s) := by
  simp only [execWaitKey, State.firstKey, h]
  split <;> rfl

theorem execRandomize_withRunInputs (x : Nibble) (kk : Byte)
    (h : (s.withRunInputs inputs turn).env.rngByte = s.env.rngByte) :
    execRandomize x kk (s.withRunInputs inputs turn) = withInputs inputs turn (execRandomize x kk s) := by
  simp only [execRandomize, h]
  rfl

/-- The draw counts only under TIMER_READ_SLACK (R190). -/
theorem timerGet_congr_low {slack low low' : Bool} (h : slack = true → low' = low) (acc : Ticks) :
    timerGet slack low' acc = timerGet slack low acc := by
  cases slack
  · rfl
  · rw [h rfl]

theorem execGetDelay_withRunInputs (x : Nibble)
    (h : s.cfg.timerReadSlack = true → (s.withRunInputs inputs turn).env.readLow = s.env.readLow) :
    execGetDelay x (s.withRunInputs inputs turn) = withInputs inputs turn (execGetDelay x s) := by
  simp only [execGetDelay, State.withRunInputs_cfg, State.withRunInputs_delay, timerGet_congr_low h]
  rfl

/-! ## The other instructions with a check -/

theorem execRet_withRunInputs :
    execRet (s.withRunInputs inputs turn) = withInputs inputs turn (execRet s) := by
  simp only [execRet, State.withRunInputs_stack]
  split <;> rfl

theorem execCall_withRunInputs (nnn : Addr12) :
    execCall nnn (s.withRunInputs inputs turn) = withInputs inputs turn (execCall nnn s) := by
  simp only [execCall, State.withRunInputs_stack, State.withRunInputs_nextPc]
  split <;> rfl

theorem execDraw_withRunInputs (x y n : Nibble) :
    execDraw x y n (s.withRunInputs inputs turn) = withInputs inputs turn (execDraw x y n s) := by
  simp only [execDraw, State.withRunInputs_readFault?, State.withRunInputs_base, State.withRunInputs_fb,
    State.withRunInputs_v, State.withRunInputs_spriteRows]
  split <;> rfl

theorem execStoreBCD_withRunInputs (x : Nibble) :
    execStoreBCD x (s.withRunInputs inputs turn) = withInputs inputs turn (execStoreBCD x s) := by
  simp only [execStoreBCD, State.withRunInputs_writeFault?, State.withRunInputs_base]
  split <;> rfl

theorem execStoreRegisterBlock_withRunInputs (x : Nibble) :
    execStoreRegisterBlock x (s.withRunInputs inputs turn) =
      withInputs inputs turn (execStoreRegisterBlock x s) := by
  simp only [execStoreRegisterBlock, State.withRunInputs_writeFault?, State.withRunInputs_base]
  split <;> rfl

theorem execLoadRegisterBlock_withRunInputs (x : Nibble) :
    execLoadRegisterBlock x (s.withRunInputs inputs turn) =
      withInputs inputs turn (execLoadRegisterBlock x s) := by
  simp only [execLoadRegisterBlock, State.withRunInputs_readFault?, State.withRunInputs_base,
    State.withRunInputs_memoryBlock]
  split <;> rfl

end Inputs

/-! ## The dispatch -/

/-- Settles O9: the readers and the other instructions with a check by their lemmas; the rest write what does not depend
on the inputs, by computation. -/
theorem inputsReachOnlyTheirReaders : Obligations.InputsReachOnlyTheirReaders := by
  intro i s inputs turn s' hkeys hrandom htimer
  cases i
  case skipPressed x => exact execSkipPressed_withRunInputs s inputs turn x (hkeys rfl)
  case skipNotPressed x => exact execSkipNotPressed_withRunInputs s inputs turn x (hkeys rfl)
  case waitKey x => exact execWaitKey_withRunInputs s inputs turn x (hkeys rfl)
  case randomize x kk => exact execRandomize_withRunInputs s inputs turn x kk (hrandom rfl)
  case getDelay x => exact execGetDelay_withRunInputs s inputs turn x (htimer rfl)
  case ret => exact execRet_withRunInputs s inputs turn
  case call nnn => exact execCall_withRunInputs s inputs turn nnn
  case draw x y n => exact execDraw_withRunInputs s inputs turn x y n
  case storeBCD x => exact execStoreBCD_withRunInputs s inputs turn x
  case storeRegisterBlock x => exact execStoreRegisterBlock_withRunInputs s inputs turn x
  case loadRegisterBlock x => exact execLoadRegisterBlock_withRunInputs s inputs turn x
  all_goals rfl

end Sys2Proof.Machine
end

section
/-! PROOFS. Stores: the font is out of their reach under policy `fault` (R53, R237), and the bytes a block store wrote
are what the next fetch reads (R61). -/

namespace Sys2Proof.Machine

/-! ## The font -/

/-- An instruction that writes memory and goes on stored its bytes at I, inside the address space (R56) and above the
font where the policy is `fault` (R53). -/
theorem exec_of_writesMemory {i : Instr} {s t : State} (hi : writesMemory i = true) (h : exec i s = .next t) :
    ∃ bs w, s.base + bs.length ≤ memSize ∧ (s.cfg.fontWritePolicy = .write ∨ fontEnd ≤ s.base) ∧
      t = ((s.storeBytes s.base bs).setI w).arriveAt s.nextPc := by
  cases i
  case storeBCD x =>
    obtain ⟨hf, rfl⟩ := execStoreBCD_eq_next.1 h
    obtain ⟨hbound, hfont⟩ := (State.writeFault?_eq_none (by decide)).1 hf
    exact ⟨bcdDigits (s.v x), s.I, hbound, hfont, rfl⟩
  case storeRegisterBlock x =>
    obtain ⟨hf, rfl⟩ := execStoreRegisterBlock_eq_next.1 h
    obtain ⟨hbound, hfont⟩ := (State.writeFault?_eq_none (Nat.succ_ne_zero _)).1 hf
    exact ⟨s.registerBlock x, _, by rwa [State.length_registerBlock], hfont, rfl⟩
  all_goals cases hi

/-- Under policy `fault` an instruction that goes on leaves every byte of the font range as it was: it writes no memory,
or it stored from an address above that range. -/
theorem exec_keeps_font_bytes {i : Instr} {s t : State} {a : Nat} (h : exec i s = .next t)
    (hmem : Memory.wf s.cfg.font s.mem) (hpolicy : s.cfg.fontWritePolicy = .fault) (ha : a < fontEnd) :
    t.byteAt a = s.byteAt a := by
  cases hi : writesMemory i with
  | false =>
    obtain ⟨-, -, -, hbytes, -⟩ := stateChangesOnlyByItsWriters i s t h
    exact hbytes hi a
  | true =>
    obtain ⟨bs, w, hbound, hfont, rfl⟩ := exec_of_writesMemory hi h
    have hbase : fontEnd ≤ s.base := hfont.resolve_left (by simp [hpolicy])
    exact (State.byteAt_storeBytes s s.base bs a hmem hbound).trans (if_neg (by omega))

theorem exec_cfg {i : Instr} {s t : State} (h : exec i s = .next t) : t.cfg = s.cfg := by
  obtain ⟨u, pc, answer, hu, -, rfl⟩ := exec_leaves h
  exact hu.sameRun.1

theorem exec_keeps_fontIntact {i : Instr} {s t : State} (h : exec i s = .next t)
    (hmem : Memory.wf s.cfg.font s.mem) (hpolicy : s.cfg.fontWritePolicy = .fault) (hs : FontIntact s) :
    FontIntact t := by
  intro a ha
  rw [exec_keeps_font_bytes h hmem hpolicy ha, hs a ha, exec_cfg h]

/-- Settles O15: the instruction keeps the font, and the host's turn writes no memory. -/
theorem stepKeepsFontIntact : Obligations.StepKeepsFontIntact := by
  intro s t hs hpolicy hfont h
  obtain ⟨w, i, u, -, -, hu, rfl⟩ := step_eq_next.1 h
  have hkept : FontIntact u := exec_keeps_fontIntact hu hs.mem hpolicy hfont
  exact hkept

/-! ## Code a block store wrote -/

/-- A block store that goes on lies inside the address space (R56). -/
theorem execStoreRegisterBlock_inBounds {x : Nibble} {s t : State} (h : execStoreRegisterBlock x s = .next t) :
    s.base + blockLength x ≤ memSize := by
  obtain ⟨hf, -⟩ := execStoreRegisterBlock_eq_next.1 h
  exact ((State.writeFault?_eq_none (Nat.succ_ne_zero _)).1 hf).1

/-- A block store puts V[q] at I + q for every q up to x (R214). -/
theorem byteAt_of_execStoreRegisterBlock {x q : Nibble} {s t : State} (h : execStoreRegisterBlock x s = .next t)
    (hmem : Memory.wf s.cfg.font s.mem) (hq : q ≤ x) : t.byteAt (s.base + q.toNat) = s.v q := by
  have hbound := execStoreRegisterBlock_inBounds h
  obtain ⟨-, rfl⟩ := execStoreRegisterBlock_eq_next.1 h
  have hlen := s.length_registerBlock x
  have hqx : q.toNat < blockLength x := Nat.lt_succ_of_le hq
  calc (s.storeBytes s.base (s.registerBlock x)).byteAt (s.base + q.toNat)
      = (s.registerBlock x)[s.base + q.toNat - s.base]?.getD 0 :=
        (State.byteAt_storeBytes s s.base _ _ hmem (by omega)).trans (if_pos (by omega))
    _ = s.v q := by rw [Nat.add_sub_cancel_left, State.getElem?_registerBlock s hq, Option.getD_some]

/-- Settles O51: both bytes at the next pc are bytes of the block. -/
theorem selfModifiedCodeIsFetched : Obligations.SelfModifiedCodeIsFetched := by
  intro x s t k hmem h hk hpc
  have hsucc : (k + 1).toNat = k.toNat + 1 := by bv_omega
  have hhigh : t.byteAt t.pc.toNat = s.v k := by
    rw [hpc]
    exact byteAt_of_execStoreRegisterBlock h hmem (BitVec.le_of_lt hk)
  have hlow : t.byteAt (t.pc.toNat + 1) = s.v (k + 1) := by
    rw [hpc, Nat.add_assoc, ← hsucc]
    exact byteAt_of_execStoreRegisterBlock h hmem (by bv_omega)
  refine State.fetch_eq_ok.2 ⟨?_, ?_⟩
  · have hbound := execStoreRegisterBlock_inBounds h
    have hkx : k.toNat < x.toNat := hk
    simp only [State.base, blockLength] at hbound
    omega
  · rw [State.fetch16, hhigh, hlow]

end Sys2Proof.Machine
end

section
/-! PROOFS. The opcode table read by format (30_encoding.md R72): a row matches a word by the fields it fixes, and the
first matching row is what the decoder selects (R74). -/

namespace Sys2Proof

/-! ## What a mask of the table compares -/

theorem eq_formNnn_iff {w : Word} {h : Nibble} {nnn : Addr12} :
    w = formNnn h nnn ↔ highNibble w = h ∧ nnnField w = nnn := by
  constructor
  · rintro rfl
    exact ⟨highNibble_formNnn h nnn, nnnField_formNnn h nnn⟩
  · rintro ⟨rfl, rfl⟩
    exact (formNnn_fields w).symm

theorem and_F000_eq_iff {w : Word} {h : Nibble} : w &&& 0xF000 = formNnn h 0x000 ↔ highNibble w = h := by
  constructor
  · intro heq
    simpa using highNibble_of_and heq rfl
  · rintro rfl
    have hmask := formNnn_and_F000 (highNibble w) (nnnField w)
    rwa [formNnn_fields] at hmask

theorem and_F00F_eq_iff {w : Word} {h n : Nibble} :
    w &&& 0xF00F = formXyn h 0x0 0x0 n ↔ highNibble w = h ∧ nField w = n := by
  constructor
  · intro heq
    exact ⟨by simpa using highNibble_of_and heq rfl, by simpa using nField_of_and heq rfl⟩
  · rintro ⟨rfl, rfl⟩
    have hmask := formXyn_and_F00F (highNibble w) (xField w) (yField w) (nField w)
    rwa [formXyn_fields] at hmask

theorem and_F0FF_eq_iff {w : Word} {h : Nibble} {kk : Byte} :
    w &&& 0xF0FF = formXkk h 0x0 kk ↔ highNibble w = h ∧ kkField w = kk := by
  constructor
  · intro heq
    exact ⟨by simpa using highNibble_of_and heq rfl, by simpa using kkField_of_and heq rfl⟩
  · rintro ⟨rfl, rfl⟩
    have hmask := formXkk_and_F0FF (highNibble w) (xField w) (kkField w)
    rwa [formXkk_fields] at hmask

/-! ## Rows by format (R72) -/

/-- A row that fixes the whole word. -/
def exactRow (h : Nibble) (nnn : Addr12) (i : Instr) : OpcodeRow := ⟨formNnn h nnn, 0xFFFF, fun _ => i⟩

/-- A row of format `nnn`. -/
def nnnRow (h : Nibble) (c : Addr12 → Instr) : OpcodeRow := ⟨formNnn h 0x000, 0xF000, fun w => c (nnnField w)⟩

/-- A row of format `xkk`. -/
def xkkRow (h : Nibble) (c : Nibble → Byte → Instr) : OpcodeRow :=
  ⟨formNnn h 0x000, 0xF000, fun w => c (xField w) (kkField w)⟩

/-- A row of format `xyn`. -/
def xynRow (h : Nibble) (c : Nibble → Nibble → Nibble → Instr) : OpcodeRow :=
  ⟨formNnn h 0x000, 0xF000, fun w => c (xField w) (yField w) (nField w)⟩

/-- A row of format `xy`, which fixes the low nibble too. -/
def xyRow (h n : Nibble) (c : Nibble → Nibble → Instr) : OpcodeRow :=
  ⟨formXyn h 0x0 0x0 n, 0xF00F, fun w => c (xField w) (yField w)⟩

/-- A row of format `x`, which fixes the low byte too. -/
def xRow (h : Nibble) (kk : Byte) (c : Nibble → Instr) : OpcodeRow :=
  ⟨formXkk h 0x0 kk, 0xF0FF, fun w => c (xField w)⟩

/-- The opcode table with each row written in its format (R75). -/
theorem opcodeTable_eq_formats : opcodeTable = [
    exactRow 0x0 0x0E0 .clearScreen, exactRow 0x0 0x0EE .ret, nnnRow 0x0 .sys, nnnRow 0x1 .jump, nnnRow 0x2 .call,
    xkkRow 0x3 .skipEqImm, xkkRow 0x4 .skipNeImm, xyRow 0x5 0x0 .skipEqReg, xkkRow 0x6 .putImm, xkkRow 0x7 .addImm,
    xyRow 0x8 0x0 .applyId, xyRow 0x8 0x1 .applyOr, xyRow 0x8 0x2 .applyAnd, xyRow 0x8 0x3 .applyXor,
    xyRow 0x8 0x4 .applyAdd, xyRow 0x8 0x5 .applySubtract, xyRow 0x8 0x6 .applyShiftRight,
    xyRow 0x8 0x7 .applySubtractInv, xyRow 0x8 0xE .applyShiftLeft, xyRow 0x9 0x0 .skipNeReg,
    nnnRow 0xA .setIndex, nnnRow 0xB .jumpPlusV0, xkkRow 0xC .randomize, xynRow 0xD .draw,
    xRow 0xE 0x9E .skipPressed, xRow 0xE 0xA1 .skipNotPressed, xRow 0xF 0x07 .getDelay, xRow 0xF 0x0A .waitKey,
    xRow 0xF 0x15 .setDelay, xRow 0xF 0x18 .setSound, xRow 0xF 0x1E .addToIndex, xRow 0xF 0x29 .loadGlyphAddress,
    xRow 0xF 0x33 .storeBCD, xRow 0xF 0x55 .storeRegisterBlock, xRow 0xF 0x65 .loadRegisterBlock] := rfl

section Rows
variable (w : Word) (h n : Nibble) (kk : Byte) (nnn : Addr12)

@[simp] theorem rowMatches_exactRow (i : Instr) :
    rowMatches w (exactRow h nnn i) = decide (highNibble w = h ∧ nnnField w = nnn) := by
  have hall : w &&& 0xFFFF = w := BitVec.and_allOnes
  rw [← decide_eq_decide.2 eq_formNnn_iff, ← beq_eq_decide]
  exact congrArg (· == formNnn h nnn) hall

@[simp] theorem rowMatches_nnnRow (c : Addr12 → Instr) : rowMatches w (nnnRow h c) = decide (highNibble w = h) :=
  (beq_eq_decide _ _).trans (decide_eq_decide.2 and_F000_eq_iff)

@[simp] theorem rowMatches_xkkRow (c : Nibble → Byte → Instr) :
    rowMatches w (xkkRow h c) = decide (highNibble w = h) :=
  (beq_eq_decide _ _).trans (decide_eq_decide.2 and_F000_eq_iff)

@[simp] theorem rowMatches_xynRow (c : Nibble → Nibble → Nibble → Instr) :
    rowMatches w (xynRow h c) = decide (highNibble w = h) :=
  (beq_eq_decide _ _).trans (decide_eq_decide.2 and_F000_eq_iff)

@[simp] theorem rowMatches_xyRow (c : Nibble → Nibble → Instr) :
    rowMatches w (xyRow h n c) = decide (highNibble w = h ∧ nField w = n) :=
  (beq_eq_decide _ _).trans (decide_eq_decide.2 and_F00F_eq_iff)

@[simp] theorem rowMatches_xRow (c : Nibble → Instr) :
    rowMatches w (xRow h kk c) = decide (highNibble w = h ∧ kkField w = kk) :=
  (beq_eq_decide _ _).trans (decide_eq_decide.2 and_F0FF_eq_iff)

@[simp] theorem build_exactRow (i : Instr) : (exactRow h nnn i).build w = i := rfl

@[simp] theorem build_nnnRow (c : Addr12 → Instr) : (nnnRow h c).build w = c (nnnField w) := rfl

@[simp] theorem build_xkkRow (c : Nibble → Byte → Instr) : (xkkRow h c).build w = c (xField w) (kkField w) := rfl

@[simp] theorem build_xynRow (c : Nibble → Nibble → Nibble → Instr) :
    (xynRow h c).build w = c (xField w) (yField w) (nField w) := rfl

@[simp] theorem build_xyRow (c : Nibble → Nibble → Instr) : (xyRow h n c).build w = c (xField w) (yField w) := rfl

@[simp] theorem build_xRow (c : Nibble → Instr) : (xRow h kk c).build w = c (xField w) := rfl

end Rows

/-! ## The first matching row (R74) -/

/-- The instruction of the first of these rows that a word matches. -/
def decodeRows (w : Word) (rows : List OpcodeRow) : Decoded :=
  match rows.find? (rowMatches w) with
  | some row => .instruction (row.build w)
  | none => .unrecognizedInstruction w

@[simp] theorem decodeRows_nil (w : Word) : decodeRows w [] = .unrecognizedInstruction w := rfl

@[simp] theorem decodeRows_cons (w : Word) (row : OpcodeRow) (rows : List OpcodeRow) :
    decodeRows w (row :: rows) = if rowMatches w row then .instruction (row.build w) else decodeRows w rows := by
  cases h : rowMatches w row <;> simp [decodeRows, h]

theorem decodeRows_eq_instruction {w : Word} {rows : List OpcodeRow} {i : Instr}
    (h : decodeRows w rows = .instruction i) : ∃ row ∈ rows, rowMatches w row = true ∧ row.build w = i := by
  unfold decodeRows at h
  split at h
  next row hrow =>
    cases h
    exact ⟨row, List.mem_of_find?_eq_some hrow, List.find?_some hrow, rfl⟩
  next => cases h

theorem decodeRows_eq_unrecognized_iff {w : Word} {rows : List OpcodeRow} :
    decodeRows w rows = .unrecognizedInstruction w ↔ ∀ row ∈ rows, ¬ rowMatches w row = true := by
  rw [decodeRows, ← List.find?_eq_none]
  split <;> simp [*]

theorem decodeRows_total (w : Word) (rows : List OpcodeRow) :
    (∃ i, decodeRows w rows = .instruction i) ∨ decodeRows w rows = .unrecognizedInstruction w := by
  unfold decodeRows
  split
  · exact .inl ⟨_, rfl⟩
  · exact .inr rfl

theorem decodeGroup0_eq_decodeRows {w : Word} (h : (highNibble w).toNat = 0x0) :
    decodeGroup0 w = decodeRows w opcodeTable := by
  have hcls : w = 0x00E0#16 ↔ highNibble w = 0 ∧ nnnField w = 0x0E0 := eq_formNnn_iff (h := 0) (nnn := 0x0E0)
  have hret : w = 0x00EE#16 ↔ highNibble w = 0 ∧ nnnField w = 0x0EE := eq_formNnn_iff (h := 0) (nnn := 0x0EE)
  simp [decodeGroup0, opcodeTable_eq_formats, BitVec.toNat_eq, hcls, hret, h]

theorem decodeGroup8_eq_decodeRows {w : Word} (h : (highNibble w).toNat = 0x8) :
    decodeGroup8 w = decodeRows w opcodeTable := by
  unfold decodeGroup8
  split <;> simp_all [opcodeTable_eq_formats, BitVec.toNat_eq]

theorem decodeGroupE_eq_decodeRows {w : Word} (h : (highNibble w).toNat = 0xE) :
    decodeGroupE w = decodeRows w opcodeTable := by
  unfold decodeGroupE
  split <;> simp_all [opcodeTable_eq_formats, BitVec.toNat_eq]

theorem decodeGroupF_eq_decodeRows {w : Word} (h : (highNibble w).toNat = 0xF) :
    decodeGroupF w = decodeRows w opcodeTable := by
  unfold decodeGroupF
  split <;> simp_all [opcodeTable_eq_formats, BitVec.toNat_eq]

/-- The decoder selects what the table selects, group by group of the high nibble (R74). -/
theorem decode_eq_decodeRows (w : Word) : decode w = decodeRows w opcodeTable := by
  unfold decode
  split
  case h_1 h => exact decodeGroup0_eq_decodeRows h
  case h_9 h => exact decodeGroup8_eq_decodeRows h
  case h_15 h => exact decodeGroupE_eq_decodeRows h
  case h_16 h => exact decodeGroupF_eq_decodeRows h
  case h_17 =>
    have hlt := (highNibble w).isLt
    simp only [imp_false] at *
    omega
  all_goals
    rename_i h
    simp [opcodeTable_eq_formats, BitVec.toNat_eq, h]

/-! ## Rows that meet in a word -/

/-- Over every pair of rows: two matches that agree on the bits both masks keep are the same, or one of the rows is an
exact word. -/
theorem pattern_eq_or_mask_eq_FFFF : ∀ row ∈ opcodeTable, ∀ other ∈ opcodeTable,
    row.pattern &&& other.mask = other.pattern &&& row.mask →
      row.pattern = other.pattern ∨ row.mask = 0xFFFF ∨ other.mask = 0xFFFF := by
  decide

theorem eq_exactWord_of_rowMatches {w : Word} {row : OpcodeRow} (hrow : row ∈ opcodeTable)
    (h : rowMatches w row = true) (hmask : row.mask = 0xFFFF) : w = 0x00E0 ∨ w = 0x00EE := by
  have hexact : ∀ row ∈ opcodeTable, row.mask = 0xFFFF → row.pattern = 0x00E0 ∨ row.pattern = 0x00EE := by
    decide
  have hw : w = row.pattern := by
    calc w = w &&& 0xFFFF := BitVec.and_allOnes.symm
      _ = w &&& row.mask := by rw [hmask]
      _ = row.pattern := beq_iff_eq.1 h
  rw [hw]
  exact hexact row hrow hmask

theorem pattern_eq_or_exactWord_of_rowMatches {w : Word} {row other : OpcodeRow} (hrow : row ∈ opcodeTable)
    (hother : other ∈ opcodeTable) (h : rowMatches w row = true) (h' : rowMatches w other = true) :
    row.pattern = other.pattern ∨ w = 0x00E0 ∨ w = 0x00EE := by
  have hagree : row.pattern &&& other.mask = other.pattern &&& row.mask := by
    rw [← beq_iff_eq.1 h, ← beq_iff_eq.1 h', BitVec.and_assoc, BitVec.and_assoc, BitVec.and_comm row.mask]
  rcases pattern_eq_or_mask_eq_FFFF row hrow other hother hagree with heq | hfull | hfull
  · exact .inl heq
  · exact .inr (eq_exactWord_of_rowMatches hrow h hfull)
  · exact .inr (eq_exactWord_of_rowMatches hother h' hfull)

/-- Settles O2: the decoder agrees with the table in every group, and rows meet only in the exact words. -/
theorem decodeFollowsOpcodeTable : Obligations.DecodeFollowsOpcodeTable :=
  ⟨decode_eq_decodeRows, fun _ _ hrow _ hother => pattern_eq_or_exactWord_of_rowMatches hrow hother⟩

end Sys2Proof
end

section
/-! PROOFS. Encoding and decoding are inverse (30_encoding.md R79): a row's instruction encodes back to every word the
row matches, and a valid instruction decodes from its word. -/

namespace Sys2Proof.Machine

/-! ## Encoding what was decoded -/

/-- A row whose instruction encodes back to every word it is built from. -/
def EncodesBack (row : OpcodeRow) : Prop := ∀ w, rowMatches w row = true → encode (row.build w) = w

section Rows
variable {h n : Nibble} {kk : Byte} {nnn : Addr12}

theorem exactRow_encodesBack {i : Instr} (hi : encode i = formNnn h nnn := by rfl) :
    EncodesBack (exactRow h nnn i) := by
  intro w hw
  obtain ⟨rfl, rfl⟩ : highNibble w = h ∧ nnnField w = nnn := by simpa using hw
  exact hi.trans (formNnn_fields w)

theorem nnnRow_encodesBack {c : Addr12 → Instr} (hc : ∀ nnn, encode (c nnn) = formNnn h nnn := by intros; rfl) :
    EncodesBack (nnnRow h c) := by
  intro w hw
  obtain rfl : highNibble w = h := by simpa using hw
  exact (hc _).trans (formNnn_fields w)

theorem xkkRow_encodesBack {c : Nibble → Byte → Instr}
    (hc : ∀ x kk, encode (c x kk) = formXkk h x kk := by intros; rfl) : EncodesBack (xkkRow h c) := by
  intro w hw
  obtain rfl : highNibble w = h := by simpa using hw
  exact (hc _ _).trans (formXkk_fields w)

theorem xynRow_encodesBack {c : Nibble → Nibble → Nibble → Instr}
    (hc : ∀ x y n, encode (c x y n) = formXyn h x y n := by intros; rfl) : EncodesBack (xynRow h c) := by
  intro w hw
  obtain rfl : highNibble w = h := by simpa using hw
  exact (hc _ _ _).trans (formXyn_fields w)

theorem xyRow_encodesBack {c : Nibble → Nibble → Instr}
    (hc : ∀ x y, encode (c x y) = formXyn h x y n := by intros; rfl) : EncodesBack (xyRow h n c) := by
  intro w hw
  obtain ⟨rfl, rfl⟩ : highNibble w = h ∧ nField w = n := by simpa using hw
  exact (hc _ _).trans (formXyn_fields w)

theorem xRow_encodesBack {c : Nibble → Instr} (hc : ∀ x, encode (c x) = formXkk h x kk := by intros; rfl) :
    EncodesBack (xRow h kk c) := by
  intro w hw
  obtain ⟨rfl, rfl⟩ : highNibble w = h ∧ kkField w = kk := by simpa using hw
  exact (hc _).trans (formXkk_fields w)

end Rows

/-- Each row by its format, in the order of the table. -/
theorem encodesBack_of_mem_opcodeTable : ∀ row ∈ opcodeTable, EncodesBack row := by
  simp only [opcodeTable_eq_formats, List.forall_mem_cons]
  exact ⟨exactRow_encodesBack, exactRow_encodesBack, nnnRow_encodesBack, nnnRow_encodesBack, nnnRow_encodesBack,
    xkkRow_encodesBack, xkkRow_encodesBack, xyRow_encodesBack, xkkRow_encodesBack, xkkRow_encodesBack,
    xyRow_encodesBack, xyRow_encodesBack, xyRow_encodesBack, xyRow_encodesBack, xyRow_encodesBack, xyRow_encodesBack,
    xyRow_encodesBack, xyRow_encodesBack, xyRow_encodesBack, xyRow_encodesBack, nnnRow_encodesBack,
    nnnRow_encodesBack, xkkRow_encodesBack, xynRow_encodesBack, xRow_encodesBack, xRow_encodesBack, xRow_encodesBack,
    xRow_encodesBack, xRow_encodesBack, xRow_encodesBack, xRow_encodesBack, xRow_encodesBack, xRow_encodesBack,
    xRow_encodesBack, xRow_encodesBack, nofun⟩

theorem encode_of_decode {w : Word} {i : Instr} (h : decode w = .instruction i) : encode i = w := by
  rw [decode_eq_decodeRows] at h
  obtain ⟨row, hrow, hmatch, rfl⟩ := decodeRows_eq_instruction h
  exact encodesBack_of_mem_opcodeTable row hrow w hmatch

/-! ## Decoding what was encoded -/

theorem wellFormed_sys {nnn : Addr12} : wellFormed (.sys nnn) = true ↔ nnn ≠ 0x0E0#12 ∧ nnn ≠ 0x0EE#12 := by
  simp [wellFormed, sysAddressValid]

theorem decode_encode {i : Instr} (hi : wellFormed i = true) : decode (encode i) = .instruction i := by
  cases i
  case clearScreen | ret => rfl
  case sys nnn =>
    obtain ⟨hcls, hret⟩ := wellFormed_sys.1 hi
    simp [decode_eq_decodeRows, opcodeTable_eq_formats, encode, hcls, hret]
  all_goals simp [encode, decode, decodeGroup8, decodeGroupE, decodeGroupF]

/-- The words of Sys(0x0E0) and Sys(0x0EE) decode to CLS and RET. -/
theorem wellFormed_of_decode_encode {i : Instr} (h : decode (encode i) = .instruction i) : wellFormed i = true := by
  cases i
  case sys nnn =>
    refine wellFormed_sys.2 ⟨?_, ?_⟩
    · rintro rfl
      exact absurd h (by decide)
    · rintro rfl
      exact absurd h (by decide)
  all_goals rfl

/-! ## Encoding by arithmetic (R71, R75) -/

theorem toNat_append_eq_add {m n : Nat} (u : BitVec m) (v : BitVec n) :
    (u ++ v).toNat = u.toNat * 2 ^ n + v.toNat := by
  rw [BitVec.toNat_append, ← Nat.shiftLeft_add_eq_or_of_lt v.isLt, Nat.shiftLeft_eq]

theorem toNat_placeField {n : Nat} (v : BitVec n) (lo : Nat) :
    (placeField v lo).toNat = v.toNat % 2 ^ 16 * 2 ^ lo % 2 ^ 16 := by
  rw [placeField, BitVec.toNat_shiftLeft, BitVec.toNat_setWidth, Nat.shiftLeft_eq]

theorem formNnn_eq_placed (h : Nibble) (nnn : Addr12) : formNnn h nnn = placeField h 12 + placeField nnn 0 := by
  apply BitVec.eq_of_toNat_eq
  simp only [formNnn, toNat_append_eq_add, BitVec.toNat_add, toNat_placeField]
  omega

theorem formXkk_eq_placed (h x : Nibble) (kk : Byte) :
    formXkk h x kk = placeField h 12 + placeField x 8 + placeField kk 0 := by
  apply BitVec.eq_of_toNat_eq
  simp only [formXkk, toNat_append_eq_add, BitVec.toNat_add, toNat_placeField]
  omega

theorem formXyn_eq_placed (h x y n : Nibble) :
    formXyn h x y n = placeField h 12 + placeField x 8 + placeField y 4 + placeField n 0 := by
  apply BitVec.eq_of_toNat_eq
  simp only [formXyn, toNat_append_eq_add, BitVec.toNat_add, toNat_placeField]
  omega

/-- Format `x`: the fixed nibble and byte first. -/
theorem formXkk_eq_fixed_add (h x : Nibble) (kk : Byte) :
    formXkk h x kk = placeField h 12 + placeField kk 0 + placeField x 8 := by
  rw [formXkk_eq_placed, add_right_comm]

/-- Format `xy`: the fixed nibbles first. -/
theorem formXyn_eq_fixed_add (h x y n : Nibble) :
    formXyn h x y n = placeField h 12 + placeField n 0 + placeField x 8 + placeField y 4 := by
  rw [formXyn_eq_placed, add_right_comm _ (placeField y 4), add_right_comm _ (placeField x 8)]

theorem encode_eq_placedWord (i : Instr) : encode i = placedWord i := by
  cases i
  case clearScreen | ret => rfl
  case sys nnn => exact (formNnn_eq_placed 0x0 nnn).trans (BitVec.zero_add _)
  case jump | call | setIndex | jumpPlusV0 => exact formNnn_eq_placed _ _
  case skipEqImm | skipNeImm | putImm | addImm | randomize => exact formXkk_eq_placed _ _ _
  case draw x y n => exact formXyn_eq_placed 0xD x y n
  case skipEqReg | skipNeReg | applyId | applyOr | applyAnd | applyXor | applyAdd | applySubtract | applyShiftRight
      | applySubtractInv | applyShiftLeft =>
    exact formXyn_eq_fixed_add _ _ _ _
  all_goals exact formXkk_eq_fixed_add _ _ _

/-- Settles O1: each row of the table encodes back to its words, and every valid instruction decodes from its word. -/
theorem decodeInvertsEncode : Obligations.DecodeInvertsEncode :=
  ⟨encode_eq_placedWord, fun _ => decode_encode, fun _ => wellFormed_sys,
    fun _ _ h => ⟨wellFormed_of_decode_encode (by rwa [encode_of_decode h]), encode_of_decode h⟩,
    fun _ _ _ h h' => (encode_of_decode h).symm.trans (encode_of_decode h')⟩

end Sys2Proof.Machine
end

section
/-! PROOFS. The fixed sub-fields (30_encoding.md R76): a word is unrecognized exactly when its low nibble or its low
byte is none of those the rows of its group fix. -/

namespace Sys2Proof

/-! ## Fields as values of a word -/

theorem ushiftRight_12_eq (w : Word) : w >>> 12 = (highNibble w).setWidth 16 := by
  apply BitVec.eq_of_toNat_eq
  simp only [highNibble, BitVec.toNat_ushiftRight, BitVec.toNat_setWidth, BitVec.extractLsb'_toNat,
    Nat.shiftRight_eq_div_pow]
  omega

theorem and_000F_eq (w : Word) : w &&& 0xF = (nField w).setWidth 16 := by
  apply BitVec.eq_of_toNat_eq
  simp only [nField, BitVec.toNat_and, BitVec.toNat_setWidth, BitVec.extractLsb'_toNat, Nat.shiftRight_zero]
  exact (Nat.and_two_pow_sub_one_eq_mod _ 4).trans (by omega)

theorem and_00FF_eq (w : Word) : w &&& 0xFF = (kkField w).setWidth 16 := by
  apply BitVec.eq_of_toNat_eq
  simp only [kkField, BitVec.toNat_and, BitVec.toNat_setWidth, BitVec.extractLsb'_toNat, Nat.shiftRight_zero]
  exact (Nat.and_two_pow_sub_one_eq_mod _ 8).trans (by omega)

theorem setWidth_16_injective {n : Nat} (hn : n ≤ 16) : Function.Injective (BitVec.setWidth 16 : BitVec n → Word) :=
  Function.LeftInverse.injective (g := BitVec.setWidth n) fun v => by simp [hn]

theorem highNibble_of_ushiftRight {w : Word} {h : Nibble} (hw : w >>> 12 = h.setWidth 16) : highNibble w = h :=
  setWidth_16_injective (by decide) ((ushiftRight_12_eq w).symm.trans hw)

theorem ushiftRight_12_mem_iff {w : Word} {hs : List Nibble} :
    w >>> 12 ∈ hs.map (BitVec.setWidth 16) ↔ highNibble w ∈ hs := by
  rw [ushiftRight_12_eq, List.mem_map_of_injective (setWidth_16_injective (by decide))]

theorem and_000F_mem_iff {w : Word} {ns : List Nibble} :
    w &&& 0xF ∈ ns.map (BitVec.setWidth 16) ↔ nField w ∈ ns := by
  rw [and_000F_eq, List.mem_map_of_injective (setWidth_16_injective (by decide))]

theorem and_00FF_mem_iff {w : Word} {kks : List Byte} :
    w &&& 0xFF ∈ kks.map (BitVec.setWidth 16) ↔ kkField w ∈ kks := by
  rw [and_00FF_eq, List.mem_map_of_injective (setWidth_16_injective (by decide))]

/-! ## Which words of a group decode -/

theorem decode_total (w : Word) : (∃ i, decode w = .instruction i) ∨ decode w = .unrecognizedInstruction w := by
  rw [decode_eq_decodeRows]
  exact decodeRows_total w opcodeTable

section Groups
variable {w : Word}

theorem decode_eq_unrecognized_iff :
    decode w = .unrecognizedInstruction w ↔ ∀ row ∈ opcodeTable, ¬ rowMatches w row = true := by
  rw [decode_eq_decodeRows, decodeRows_eq_unrecognized_iff]

theorem decode_unrecognized_iff_of_group5or9 (h : highNibble w = 0x5 ∨ highNibble w = 0x9) :
    decode w = .unrecognizedInstruction w ↔ nField w ∉ ([0x0] : List Nibble) := by
  rcases h with h | h <;> simp [decode_eq_unrecognized_iff, opcodeTable_eq_formats, h]

theorem decode_unrecognized_iff_of_group8 (h : highNibble w = 0x8) :
    decode w = .unrecognizedInstruction w ↔
      nField w ∉ ([0x0, 0x1, 0x2, 0x3, 0x4, 0x5, 0x6, 0x7, 0xE] : List Nibble) := by
  simp [decode_eq_unrecognized_iff, opcodeTable_eq_formats, h]

theorem decode_unrecognized_iff_of_groupE (h : highNibble w = 0xE) :
    decode w = .unrecognizedInstruction w ↔ kkField w ∉ ([0x9E, 0xA1] : List Byte) := by
  simp [decode_eq_unrecognized_iff, opcodeTable_eq_formats, h]

theorem decode_unrecognized_iff_of_groupF (h : highNibble w = 0xF) :
    decode w = .unrecognizedInstruction w ↔
      kkField w ∉ ([0x07, 0x0A, 0x15, 0x18, 0x1E, 0x29, 0x33, 0x55, 0x65] : List Byte) := by
  simp [decode_eq_unrecognized_iff, opcodeTable_eq_formats, h]

theorem decode_of_groupD (h : highNibble w = 0xD) :
    decode w = .instruction (.draw (xField w) (yField w) (nField w)) := by
  simp [decode, h]

theorem decode_of_group0 (h : highNibble w = 0x0) :
    decode w = .instruction .clearScreen ∨ decode w = .instruction .ret ∨
      ∃ nnn, decode w = .instruction (.sys nnn) := by
  have hgroup : decode w = decodeGroup0 w := by simp [decode, h]
  rw [hgroup, decodeGroup0]
  split
  · exact .inl rfl
  · split
    · exact .inr (.inl rfl)
    · exact .inr (.inr ⟨_, rfl⟩)

/-- Every high nibble but these five is fixed by a row that fixes nothing else. -/
theorem highNibble_mem_of_unrecognized (h : decode w = .unrecognizedInstruction w) :
    highNibble w ∈ ([0x5, 0x8, 0x9, 0xE, 0xF] : List Nibble) := by
  have hgroup : ∀ h : Nibble, h ∈ ([0x5, 0x8, 0x9, 0xE, 0xF] : List Nibble) ∨
      ∃ row ∈ opcodeTable, row.mask = 0xF000 ∧ row.pattern = formNnn h 0x000 := by decide
  refine (hgroup (highNibble w)).resolve_right ?_
  rintro ⟨row, hrow, hmask, hpattern⟩
  refine decode_eq_unrecognized_iff.1 h row hrow (beq_iff_eq.2 ?_)
  rw [hmask, hpattern, and_F000_eq_iff]

end Groups

/-- Settles O3: clause by clause, the words of R76 read as fields. -/
theorem fixedSubFieldsAreChecked : Obligations.FixedSubFieldsAreChecked := by
  intro w
  refine ⟨decode_total w, fun h => ?_, fun h => ?_, fun h => ?_, fun h => ?_, fun h => ?_, fun h => ?_, fun h => ?_⟩
  · have hgroup := h.imp (highNibble_of_ushiftRight (h := 0x5)) (highNibble_of_ushiftRight (h := 0x9))
    rw [decode_unrecognized_iff_of_group5or9 hgroup, ← and_000F_mem_iff]
    simp
  · exact (decode_unrecognized_iff_of_group8 (highNibble_of_ushiftRight h)).trans (not_congr and_000F_mem_iff.symm)
  · exact (decode_unrecognized_iff_of_groupE (highNibble_of_ushiftRight h)).trans (not_congr and_00FF_mem_iff.symm)
  · exact (decode_unrecognized_iff_of_groupF (highNibble_of_ushiftRight h)).trans (not_congr and_00FF_mem_iff.symm)
  · exact ⟨_, _, _, decode_of_groupD (highNibble_of_ushiftRight h)⟩
  · exact decode_of_group0 (highNibble_of_ushiftRight h)
  · exact (decode_total w).resolve_right fun hw => h (ushiftRight_12_mem_iff.2 (highNibble_mem_of_unrecognized hw))

/-- Settles O4: nine closed words. -/
theorem sampleWordsDecode : Obligations.SampleWordsDecode := by
  unfold Obligations.SampleWordsDecode
  decide

end Sys2Proof
end

section
/-! PROOFS. The faults of a cycle (40_cycle.md R102, R103, R107, R108): the check of an instruction decides whether it
faults, and the check, the fetch and the decoder read pc, memory, registers, I, the stack and the parameters only. -/

namespace Sys2Proof.Machine

/-! ## The ends of an instruction -/

@[simp] theorem raise_eq_fault {f g : Fault} : raise g = .fault f ↔ g = f := by simp [raise]

@[simp] theorem State.jumpTo_ne_fault (s : State) (w : Word) (f : Fault) : s.jumpTo w ≠ .fault f := by
  simp [State.jumpTo]

@[simp] theorem State.complete_ne_fault (s : State) (f : Fault) : s.complete ≠ .fault f :=
  s.jumpTo_ne_fault s.nextPc f

@[simp] theorem State.skipIf_ne_fault (s : State) (c : Bool) (f : Fault) : s.skipIf c ≠ .fault f :=
  s.jumpTo_ne_fault _ f

/-! ## The check of an instruction -/

/-- The fault an instruction raises before its first write, if it raises one (R107, R230). -/
def State.faultOf? (s : State) : Instr → Option Fault
  | .ret => if s.stack = [] then some (.stackUnderflow s.pc (encode .ret)) else none
  | .sys nnn => some (.unimplementedSys s.pc (encode (.sys nnn)))
  | .call nnn => if stackDepth ≤ s.stack.length then some (.stackOverflow s.pc (encode (.call nnn))) else none
  | .draw x y n => s.readFault? (.draw x y n) s.base n.toNat
  | .skipPressed x =>
    if keyIndexValid (s.v x) then none else some (.invalidKeyIndex s.pc (encode (.skipPressed x)) (s.v x))
  | .skipNotPressed x =>
    if keyIndexValid (s.v x) then none else some (.invalidKeyIndex s.pc (encode (.skipNotPressed x)) (s.v x))
  | .storeBCD x => s.writeFault? (.storeBCD x) s.base 3
  | .storeRegisterBlock x => s.writeFault? (.storeRegisterBlock x) s.base (blockLength x)
  | .loadRegisterBlock x => s.readFault? (.loadRegisterBlock x) s.base (blockLength x)
  | _ => none

section Check

variable {s : State} {f : Fault}

theorem execRet_eq_fault : execRet s = .fault f ↔ s.faultOf? .ret = some f := by
  cases h : s.stack <;> simp [execRet, State.faultOf?, popStack, h]

theorem execCall_eq_fault {nnn : Addr12} : execCall nnn s = .fault f ↔ s.faultOf? (.call nnn) = some f := by
  unfold execCall
  split <;> rename_i h
  · simp [State.faultOf?, pushStack_eq_none.1 h]
  · have hlt := (pushStack_eq_some.1 h).1
    simp [State.faultOf?, hlt]

theorem execDraw_eq_fault {x y n : Nibble} : execDraw x y n s = .fault f ↔ s.faultOf? (.draw x y n) = some f := by
  unfold execDraw
  split <;> rename_i h <;> simp [State.faultOf?, h]

theorem execSkipPressed_eq_fault {x : Nibble} :
    execSkipPressed x s = .fault f ↔ s.faultOf? (.skipPressed x) = some f := by
  unfold execSkipPressed
  split <;> rename_i h <;> simp [State.faultOf?, h]

theorem execSkipNotPressed_eq_fault {x : Nibble} :
    execSkipNotPressed x s = .fault f ↔ s.faultOf? (.skipNotPressed x) = some f := by
  unfold execSkipNotPressed
  split <;> rename_i h <;> simp [State.faultOf?, h]

theorem execStoreBCD_eq_fault {x : Nibble} : execStoreBCD x s = .fault f ↔ s.faultOf? (.storeBCD x) = some f := by
  unfold execStoreBCD
  split <;> rename_i h <;> simp [State.faultOf?, h]

theorem execStoreRegisterBlock_eq_fault {x : Nibble} :
    execStoreRegisterBlock x s = .fault f ↔ s.faultOf? (.storeRegisterBlock x) = some f := by
  unfold execStoreRegisterBlock
  split <;> rename_i h <;> simp [State.faultOf?, h]

theorem execLoadRegisterBlock_eq_fault {x : Nibble} :
    execLoadRegisterBlock x s = .fault f ↔ s.faultOf? (.loadRegisterBlock x) = some f := by
  unfold execLoadRegisterBlock
  split <;> rename_i h <;> simp [State.faultOf?, h]

/-- An instruction faults exactly with what its check gives. -/
theorem exec_eq_fault {i : Instr} : exec i s = .fault f ↔ s.faultOf? i = some f := by
  cases i
  case sys => simp [exec, execSys, State.faultOf?]
  case ret => exact execRet_eq_fault
  case call => exact execCall_eq_fault
  case draw => exact execDraw_eq_fault
  case skipPressed => exact execSkipPressed_eq_fault
  case skipNotPressed => exact execSkipNotPressed_eq_fault
  case storeBCD => exact execStoreBCD_eq_fault
  case storeRegisterBlock => exact execStoreRegisterBlock_eq_fault
  case loadRegisterBlock => exact execLoadRegisterBlock_eq_fault
  case jump | jumpPlusV0 => exact iff_of_false (State.jumpTo_ne_fault _ _ f) nofun
  case skipEqImm | skipNeImm | skipEqReg | skipNeReg => exact iff_of_false (State.skipIf_ne_fault _ _ f) nofun
  case waitKey x => simp [exec, execWaitKey, State.faultOf?]
  case clearScreen | putImm | addImm | applyId | applyOr | applyAnd | applyXor | applyAdd | applySubtract
      | applyShiftRight | applySubtractInv | applyShiftLeft | setIndex | randomize | getDelay | setDelay | setSound
      | addToIndex | loadGlyphAddress =>
    exact iff_of_false (State.complete_ne_fault _ f) nofun

end Check

/-! ## What the fetch and the check read -/

section Reads

variable {s s' : State}

theorem State.fetch_congr (hpc : s'.pc = s.pc) (hmem : s'.mem = s.mem) (hcfg : s'.cfg = s.cfg) :
    s'.fetch = s.fetch := by
  simp only [State.fetch, State.fetch16, hpc, State.byteAt_congr hmem hcfg]

theorem State.faultOf?_congr (hpc : s'.pc = s.pc) (hregs : s'.regs = s.regs) (hI : s'.I = s.I)
    (hstack : s'.stack = s.stack) (hcfg : s'.cfg = s.cfg) (i : Instr) : s'.faultOf? i = s.faultOf? i := by
  have hbase : s'.base = s.base := congrArg BitVec.toNat hI
  cases i
  case ret | call => simp only [State.faultOf?, hpc, hstack]
  case sys => simp only [State.faultOf?, hpc]
  case skipPressed | skipNotPressed => simp only [State.faultOf?, hpc, State.v_congr hregs]
  case draw | loadRegisterBlock => simp only [State.faultOf?, State.readFault?, hpc, hbase]
  case storeBCD | storeRegisterBlock => simp only [State.faultOf?, State.writeFault?_eq, hpc, hbase, hcfg]
  all_goals rfl

end Reads

/-- Settles O8: the fetch and the check answer the same in both states, so the step faults in the same place. -/
theorem faultsAreFinal : Obligations.FaultsAreFinal := by
  intro s s' f h hpc hmem hregs hI hstack hcfg
  have hfetch := State.fetch_congr hpc hmem hcfg
  have hcheck := State.faultOf?_congr hpc hregs hI hstack hcfg
  simp only [step_eq_fault, exec_eq_fault] at h ⊢
  simpa only [hfetch, hpc, hcheck] using h

end Sys2Proof.Machine
end

section
/-! PROOFS. The cycle (40_cycle.md R102 to R106) and the end of a run (R112). -/

namespace Sys2Proof.Machine

/-! ## The end of a run -/

theorem State.atRunEnd_iff {s : State} :
    s.atRunEnd = true ↔
      ∃ w, s.fetch = .ok w ∧ decode w = .instruction (.jump (s.pc.setWidth 12)) ∧ s.pc.toNat < memSize := by
  unfold State.atRunEnd
  split <;> rename_i h <;> simp [h]

theorem State.atRunEnd_congr {s s' : State} (hpc : s'.pc = s.pc) (hmem : s'.mem = s.mem) (hcfg : s'.cfg = s.cfg) :
    s'.atRunEnd = s.atRunEnd := by
  simp only [State.atRunEnd, State.fetch_congr hpc hmem hcfg, hpc]

/-- The low 12 bits of an address are the address. -/
theorem zextAddr_setWidth {a : Word} (h : a.toNat < memSize) : zextAddr (a.setWidth 12) = a := by
  refine BitVec.eq_of_toNat_eq ?_
  have hlt : a.toNat < 0x1000 := h
  simp only [zextAddr, BitVec.toNat_setWidth]
  omega

/-- At the end of a run the jump is to pc, so the instruction leaves all but the answer (R112, R122). -/
theorem State.step_of_atRunEnd {s : State} (h : s.atRunEnd = true) :
    step s = .next { s with answer := .ok }.hostTurn := by
  obtain ⟨w, hfetch, hdecode, hpc⟩ := State.atRunEnd_iff.1 h
  have hexec : exec (.jump (s.pc.setWidth 12)) s = .next (s.arriveAt s.pc) :=
    congrArg s.jumpTo (zextAddr_setWidth hpc)
  exact step_eq_next.2 ⟨w, _, _, hfetch, hdecode, hexec, rfl⟩

/-- Settles O10: neither the jump nor the host's turn changes pc, memory or the parameters. -/
theorem runEndLoopsForever : Obligations.RunEndLoopsForever := by
  intro s h
  have hstep := State.step_of_atRunEnd h
  refine ⟨hstep, fun t ht => ?_⟩
  obtain rfl : _ = t := Host.Outcome.next.inj (hstep.symm.trans ht)
  exact (State.atRunEnd_congr rfl rfl rfl).trans h

/-! ## Fetch, decode, execute -/

/-- Settles O5, by what the instruction answers; a refusal is no answer of an instruction. -/
theorem stepRunsDecodedInstruction : Obligations.StepRunsDecodedInstruction := by
  refine ⟨fun s i hpc hdecode => ?_, fun t => rfl⟩
  have hfetch : s.fetch = .ok (s.fetch16 s.pc.toNat) := State.fetch_eq_ok.2 ⟨Nat.add_le_add_right hpc 2, rfl⟩
  cases hexec : exec i s with
  | next t => exact step_eq_next.2 ⟨_, i, t, hfetch, hdecode, hexec, rfl⟩
  | fault f => exact step_eq_fault.2 (.inr (.inr ⟨_, i, hfetch, hdecode, hexec⟩))
  | refused r => exact absurd hexec (exec_ne_refused i s r)

/-- The big-endian word of two bytes by shift and or (R54, R102). -/
theorem wordOfBytes_eq_or (hi lo : Byte) : wordOfBytes hi lo = (hi.setWidth 16 <<< 8) ||| lo.setWidth 16 := by
  rw [wordOfBytes, ← BitVec.setWidth_append_eq_shiftLeft_setWidth_or, BitVec.setWidth_eq]

theorem State.step_of_fetchFault {s : State} {addr : Nat} (h : 0xFFF ≤ s.pc.toNat)
    (haddr : max s.pc.toNat 0x1000 = addr) : step s = .fault (.outOfBoundsMemoryAccess s.pc none addr) :=
  step_eq_fault.2 (.inl (State.fetch_eq_error.2 ⟨Nat.add_le_add_right h 2, by rw [haddr]⟩))

/-- Settles O6: the fetch by its two laws, and the lowest out-of-range byte as the greater of pc and 0x1000. -/
theorem fetchReadsWordOrFaults : Obligations.FetchReadsWordOrFaults := by
  refine fun s => ⟨fun h => ?_, fun h => ?_, fun h => ?_⟩
  · exact State.fetch_eq_ok.2 ⟨Nat.succ_le_succ h, (wordOfBytes_eq_or _ _).symm⟩
  · exact State.step_of_fetchFault h.ge (by omega)
  · exact State.step_of_fetchFault h.le (by omega)

/-- Settles O7: a step that fetched a word the decoder does not recognize is a fault of the decoder. -/
theorem unrecognizedWordFaults : Obligations.UnrecognizedWordFaults :=
  fun _ w hfetch hdecode => step_eq_fault.2 (.inr (.inl ⟨w, w, hfetch, hdecode, rfl⟩))

end Sys2Proof.Machine
end

section
/-! PROOFS. The "Encoding" line of an instruction's rule (30_encoding.md R74): a word with the fixed bits of a row of
the opcode table decodes to what the row builds, unless the word is that of CLS or RET. -/

namespace Sys2Proof.Machine

/-- A pattern is the pattern of one row only. -/
theorem opcodeRow_eq_of_pattern_eq {row other : OpcodeRow} (hrow : row ∈ opcodeTable) (hother : other ∈ opcodeTable)
    (h : row.pattern = other.pattern) : row = other := by
  have hnodup : (opcodeTable.map OpcodeRow.pattern).Nodup := by decide
  exact List.inj_on_of_nodup_map hnodup hrow hother h

/-- Away from the two exact words a word matches one row only, so that row is the first (R74). -/
theorem decode_of_rowMatches {w : Word} {row : OpcodeRow} (hrow : row ∈ opcodeTable) (h : rowMatches w row = true)
    (hcls : w ≠ 0x00E0) (hret : w ≠ 0x00EE) : decode w = .instruction (row.build w) := by
  rw [decode_eq_decodeRows, decodeRows]
  cases hfind : opcodeTable.find? (rowMatches w) with
  | none => exact absurd h (List.find?_eq_none.1 hfind row hrow)
  | some other =>
    have hother := List.mem_of_find?_eq_some hfind
    have hpattern : other.pattern = row.pattern :=
      (pattern_eq_or_exactWord_of_rowMatches hother hrow (List.find?_some hfind) h).resolve_right
        (not_or.2 ⟨hcls, hret⟩)
    rw [opcodeRow_eq_of_pattern_eq hother hrow hpattern]

/-- The row of a pattern that neither exact word matches is the encoding of its instruction. -/
theorem encodedAs_of_row {pattern mask : Word} {build : Word → Instr}
    (hrow : opcodeTable.find? (·.pattern == pattern) = some ⟨pattern, mask, build⟩ := by rfl)
    (hcls : 0x00E0 &&& mask ≠ pattern := by decide) (hret : 0x00EE &&& mask ≠ pattern := by decide) :
    EncodedAs pattern mask build := by
  intro w hw
  refine decode_of_rowMatches (List.mem_of_find?_eq_some hrow) (beq_iff_eq.2 hw) ?_ ?_
  · rintro rfl
    exact hcls hw
  · rintro rfl
    exact hret hw

end Sys2Proof.Machine
end

section
/-! PROOFS. Control transfer (41_control_flow.md): what each jump, call, return and skip answers, and that it leaves
everything but pc, and for CALL and RET the call stack, as it was. -/

namespace Sys2Proof.Machine

/-! ## Frames -/

theorem State.onlyPc_arriveAt (s : State) (w : Word) : OnlyPc s (s.arriveAt w) :=
  ⟨fun _ => rfl, rfl, rfl, ⟨rfl, rfl⟩, fun _ _ => rfl, fun _ => rfl, ⟨rfl, rfl, rfl⟩, rfl⟩

theorem State.onlyPcAndStack_arriveAt (s : State) (l : List Word) (w : Word) :
    OnlyPcAndStack s ((s.setStack l).arriveAt w) :=
  ⟨fun _ => rfl, rfl, ⟨rfl, rfl⟩, fun _ _ => rfl, fun _ => rfl, ⟨rfl, rfl, rfl⟩, rfl⟩

/-! ## Targets -/

theorem zextAddr_toNat (nnn : Addr12) : (zextAddr nnn).toNat = nnn.toNat := by
  rw [zextAddr, BitVec.toNat_setWidth, Nat.mod_eq_of_lt (nnn.isLt.trans (by decide))]

theorem zextByte_toNat (b : Byte) : (zextByte b).toNat = b.toNat := by
  rw [zextByte, BitVec.toNat_setWidth, Nat.mod_eq_of_lt (b.isLt.trans (by decide))]

/-- The sum of Bnnn is at most 0x10FE, so it does not wrap (R128). -/
theorem State.targetPlusV0_toNat (s : State) (nnn : Addr12) :
    (s.targetPlusV0 nnn).toNat = nnn.toNat + (s.v 0x0).toNat := by
  have hn := nnn.isLt
  have hv := (s.v 0x0).isLt
  rw [State.targetPlusV0, BitVec.toNat_add, zextAddr_toNat, zextByte_toNat]
  omega

/-- A skip on a condition `p` lands at pc + 4 where `p` holds, else at pc + 2 (R129). -/
theorem State.skipIf_lands {s : State} {c : Bool} {p : Prop} [Decidable p] (hc : c = true ↔ p) :
    ∃ t, s.skipIf c = .next t ∧ t.pc = (if p then s.pc + 4 else s.pc + 2) ∧ OnlyPc s t := by
  refine ⟨_, State.skipIf_eq_next.2 rfl, ?_, s.onlyPc_arriveAt _⟩
  have hskip : s.nextPc + 2 = s.pc + 4 := BitVec.add_assoc s.pc 2 2
  exact if_congr hc hskip rfl

/-! ## Jumps, calls and returns -/

/-- Settles O21: the target is the field, zero-extended. -/
theorem jumpSetsPc : Obligations.JumpSetsPc :=
  ⟨encodedAs_of_row, fun nnn s => ⟨s.arriveAt (zextAddr nnn), rfl, zextAddr_toNat nnn, s.onlyPc_arriveAt _⟩⟩

/-- Settles O22: the push happens below depth 16, and at depth 16 the check of CALL gives the fault. -/
theorem callPushesReturnAddress : Obligations.CallPushesReturnAddress := by
  refine ⟨encodedAs_of_row, fun nnn s => ⟨fun hlt => ?_, fun hfull => ?_⟩⟩
  · exact ⟨_, execCall_eq_next.2 ⟨hlt, rfl⟩, rfl, zextAddr_toNat nnn, s.onlyPcAndStack_arriveAt _ _⟩
  · exact exec_eq_fault.2 (if_pos hfull.ge)

/-- Settles O23: the pop takes the entry pushed last, and on the empty stack the check of RET gives the fault. -/
theorem retPopsReturnAddress : Obligations.RetPopsReturnAddress := by
  refine ⟨decode_encode (i := .ret) rfl, fun s => ⟨fun v rest hs => ?_, fun hempty => ?_⟩⟩
  · exact ⟨_, execRet_eq_next.2 ⟨v, rest, hs, rfl⟩, rfl, rfl, s.onlyPcAndStack_arriveAt rest v⟩
  · exact exec_eq_fault.2 (if_pos hempty)

/-- Settles O24: CALL left its return address on top of the caller's stack, where RET finds it whatever pc is. -/
theorem retReturnsAfterCall : Obligations.RetReturnsAfterCall := by
  intro nnn s t pc hcall
  have hstack : t.stack = s.nextPc :: s.stack := congrArg State.stack (execCall_eq_next.1 hcall).2
  obtain ⟨u, hret, hpc, hrest, -⟩ := (retPopsReturnAddress.2 { t with pc := pc }).1 s.nextPc s.stack hstack
  exact ⟨u, hret, hpc, hrest⟩

/-- Settles O25: the words of the group other than the two exact ones are of row 0nnn, and the check of SYS always
gives the fault. -/
theorem sysAlwaysFaults : Obligations.SysAlwaysFaults := by
  refine ⟨fun w hw hcls hret => ?_, fun nnn s => exec_eq_fault.2 rfl⟩
  have hrow : ⟨0x0000, 0xF000, fun w => .sys (nnnField w)⟩ ∈ opcodeTable := .tail _ (.tail _ (.head _))
  exact decode_of_rowMatches hrow (beq_iff_eq.2 hw) hcls hret

/-- Settles O28: the sum does not wrap. -/
theorem jumpPlusV0AddsUnmasked : Obligations.JumpPlusV0AddsUnmasked :=
  ⟨encodedAs_of_row, fun nnn s =>
    ⟨s.arriveAt (s.targetPlusV0 nnn), rfl, s.targetPlusV0_toNat nnn, s.onlyPc_arriveAt _⟩⟩

/-! ## Skips -/

/-- Settles O26: the conditions are those of V[x] and kk. -/
theorem immediateSkips : Obligations.ImmediateSkips :=
  ⟨encodedAs_of_row, encodedAs_of_row, fun _ _ _ =>
    ⟨State.skipIf_lands beq_iff_eq, State.skipIf_lands bne_iff_ne⟩⟩

/-- Settles O27: the conditions are those of V[x] and V[y]. -/
theorem registerSkips : Obligations.RegisterSkips :=
  ⟨encodedAs_of_row, encodedAs_of_row, fun _ _ _ =>
    ⟨State.skipIf_lands beq_iff_eq, State.skipIf_lands bne_iff_ne⟩⟩

end Sys2Proof.Machine
end

section
/-! PROOFS. Register loads and ALU (42_alu.md): what each instruction leaves in V[x] and in VF, and that it leaves
everything else but pc as it was. -/

namespace Sys2Proof.Machine

/-! ## The two ends of an ALU instruction -/

theorem State.onlyRegs_arriveAt (s : State) (regs : Regs) :
    OnlyRegs s (State.arriveAt { s with regs := regs } s.nextPc) :=
  ⟨rfl, rfl, rfl, ⟨rfl, rfl⟩, fun _ _ => rfl, fun _ => rfl, ⟨rfl, rfl, rfl⟩, rfl⟩

/-- The end of an instruction without a flag: V[x] holds the result, VF is a register as any other (R141 to R146,
R152). -/
theorem State.complete_setV (s : State) (x : Nibble) (b : Byte) :
    ∃ t, (s.setV x b).complete = .next t ∧ (∀ q, t.v q = if q = x then b else s.v q) ∧ OnlyRegs s t :=
  ⟨(s.setV x b).arriveAt s.nextPc, rfl, s.v_setV x b, s.onlyRegs_arriveAt _⟩

/-- The end of an instruction with a flag: VF holds the flag whatever x is, V[x] the result where x is not F (R140). -/
theorem State.complete_setResultAndFlag (s : State) (x : Nibble) (r : Byte) (flag : Bool) :
    ∃ t, (s.setResultAndFlag x r flag).complete = .next t ∧ (x ≠ vf → t.v x = r) ∧ t.v vf = boolToU8 flag ∧
      (∀ q, q ≠ x → q ≠ vf → t.v q = s.v q) ∧ OnlyRegs s t := by
  have hv := s.v_setResultAndFlag x r flag
  refine ⟨(s.setResultAndFlag x r flag).arriveAt s.nextPc, rfl, fun hx => ?_, ?_, fun q hqx hqf => ?_,
    s.onlyRegs_arriveAt _⟩
  · exact (hv x).trans ((if_neg hx).trans (if_pos rfl))
  · exact (hv vf).trans (if_pos rfl)
  · exact (hv q).trans ((if_neg hqf).trans (if_neg hqx))

/-! ## Results and flags as numbers -/

theorem boolToU8_decide (p : Prop) [Decidable p] : boolToU8 (decide p) = if p then 0x01 else 0x00 :=
  if_congr decide_eq_true_iff rfl rfl

/-- A bit of a byte as the flag (R149, R151). -/
theorem toNat_boolToU8_getLsbD (b : Byte) (k : Nat) : (boolToU8 (b.getLsbD k)).toNat = b.toNat / 2 ^ k % 2 := by
  have hbool : ∀ c, (boolToU8 c).toNat = c.toNat := by decide
  rw [hbool, BitVec.getLsbD, Nat.toNat_testBit]

/-- The difference `-8` is that of the integers, modulo 256 (R148, R150). -/
theorem toNat_sub_eq_int_mod (a b : Byte) : ((a - b).toNat : Int) = (a.toNat - b.toNat : Int) % 256 := by
  have hb := b.isLt
  rw [BitVec.toNat_sub]
  omega

/-! ## Without a flag -/

/-- Settles O29: both end by writing V[x] alone, and the sum of bytes wraps. -/
theorem immediateLoadAndAdd : Obligations.ImmediateLoadAndAdd := by
  refine ⟨encodedAs_of_row, encodedAs_of_row, fun x kk s => ⟨s.complete_setV x kk, ?_⟩⟩
  obtain ⟨t, ht, hv, hframe⟩ := s.complete_setV x (s.v x + kk)
  refine ⟨t, ht, ?_, fun q hq => (hv q).trans (if_neg hq), hframe⟩
  rw [hv, if_pos rfl]
  exact BitVec.toNat_add _ _

/-- Settles O30: all four end by writing V[x] alone. -/
theorem logicWritesNoFlag : Obligations.LogicWritesNoFlag :=
  ⟨encodedAs_of_row, encodedAs_of_row, encodedAs_of_row, encodedAs_of_row, fun x _ s =>
    ⟨s.complete_setV x _, s.complete_setV x _, s.complete_setV x _, s.complete_setV x _⟩⟩

/-- Settles O34: the masked random byte is the only write. -/
theorem randomizeMasksTheRandomByte : Obligations.RandomizeMasksTheRandomByte :=
  ⟨encodedAs_of_row, fun x _ s => s.complete_setV x _⟩

/-! ## With a flag -/

/-- Settles O31: the sum of bytes wraps, and the carry is written after it. -/
theorem addSetsCarryLast : Obligations.AddSetsCarryLast := by
  refine ⟨encodedAs_of_row, fun x y s => ?_⟩
  obtain ⟨t, ht, hresult, hflag, hframe⟩ :=
    s.complete_setResultAndFlag x (s.v x + s.v y) (carryOf (s.v x) (s.v y))
  refine ⟨t, ht, fun hx => ?_, hflag.trans (boolToU8_decide _), hframe⟩
  rw [hresult hx]
  exact BitVec.toNat_add _ _

/-- The end of SUB and SUBN, whose operands are V[x] and V[y] in one order or the other (R148, R150). -/
theorem State.complete_subtract (s : State) (x : Nibble) (a b : Byte) :
    ∃ t, (s.setResultAndFlag x (a - b) (notBorrow a b)).complete = .next t ∧
      (x ≠ vf → ((t.v x).toNat : Int) = (a.toNat - b.toNat : Int) % 256) ∧
      t.v vf = (if b.toNat ≤ a.toNat then 0x01 else 0x00) ∧
      (∀ q, q ≠ x → q ≠ vf → t.v q = s.v q) ∧ OnlyRegs s t := by
  obtain ⟨t, ht, hresult, hflag, hframe⟩ := s.complete_setResultAndFlag x (a - b) (notBorrow a b)
  refine ⟨t, ht, fun hx => ?_, hflag.trans (boolToU8_decide _), hframe⟩
  rw [hresult hx]
  exact toNat_sub_eq_int_mod a b

/-- Settles O32: the same subtraction with the operands in both orders. -/
theorem subtractSetsNotBorrowLast : Obligations.SubtractSetsNotBorrowLast :=
  ⟨encodedAs_of_row, encodedAs_of_row, fun x y s =>
    ⟨s.complete_subtract x (s.v x) (s.v y), s.complete_subtract x (s.v y) (s.v x)⟩⟩

/-- Settles O33: a shift by one halves or doubles V[y], and the bit shifted out is written after it. -/
theorem shiftsReadVyAndSetShiftedOutBit : Obligations.ShiftsReadVyAndSetShiftedOutBit := by
  refine ⟨encodedAs_of_row, encodedAs_of_row, fun x y s => ⟨?_, ?_⟩⟩
  · obtain ⟨t, ht, hresult, hflag, hframe⟩ :=
      s.complete_setResultAndFlag x (s.v y >>> 1) (shiftedOutRight (s.v y))
    refine ⟨t, ht, fun hx => ?_, ?_, hframe⟩
    · rw [hresult hx, BitVec.toNat_ushiftRight, Nat.shiftRight_eq_div_pow, pow_one]
    · rw [hflag, shiftedOutRight, toNat_boolToU8_getLsbD, pow_zero, Nat.div_one]
  · obtain ⟨t, ht, hresult, hflag, hframe⟩ :=
      s.complete_setResultAndFlag x (s.v y <<< 1) (shiftedOutLeft (s.v y))
    refine ⟨t, ht, fun hx => ?_, ?_, hframe⟩
    · rw [hresult hx, BitVec.toNat_shiftLeft, Nat.shiftLeft_eq]
    · have hlt := (s.v y).isLt
      rw [hflag, shiftedOutLeft, toNat_boolToU8_getLsbD]
      omega

end Sys2Proof.Machine
end

section
/-! PROOFS. Display (43_display.md): CLS, the cells a draw toggles and the collision it reports, the same draw twice,
and the host's read of a cell. -/

namespace Sys2Proof.Machine

/-! ## Cells -/

/-- Inside the grid the coordinates do not wrap (R31). -/
theorem Framebuffer.cell_eq_getElem (fb : Framebuffer) {c r : Nat} (hc : c < 64) (hr : r < 32) :
    Framebuffer.cell fb c r = (fb[c])[r] := by
  simp only [Framebuffer.cell, Nat.mod_eq_of_lt hc, Nat.mod_eq_of_lt hr]

/-- The grid is the whole display: coordinates wrap to it (R171). -/
theorem sameDisplay_of_grid {s t : State} (h : ∀ c r, c < 64 → r < 32 → t.pixel c r = s.pixel c r) :
    SameDisplay s t := by
  intro c r
  calc t.pixel c r = t.pixel (c % 64) (r % 32) := (t.fb.cell_mod c r).symm
    _ = s.pixel (c % 64) (r % 32) := h _ _ (Nat.mod_lt c (by decide)) (Nat.mod_lt r (by decide))
    _ = s.pixel c r := s.fb.cell_mod c r

/-- Settles O45: inside the grid the read is the cell's, outside its guard refuses. -/
theorem displayGetReadsACell : Obligations.DisplayGetReadsACell := by
  refine fun s c r => ⟨fun hc hr => ?_, fun hout => if_neg (by omega)⟩
  rw [← s.fb.cell_eq_getElem hc hr]
  exact if_pos ⟨hc, hr⟩

/-! ## CLS -/

/-- Settles O35: the framebuffer it leaves is the cleared one. -/
theorem clearScreenUnlightsEveryCell : Obligations.ClearScreenUnlightsEveryCell :=
  ⟨decode_encode (i := .clearScreen) rfl, fun s =>
    ⟨(s.setFb clearedFb).arriveAt s.nextPc, rfl, Framebuffer.cell_clearedFb,
      rfl, fun _ => rfl, rfl, rfl, ⟨rfl, rfl⟩, fun _ => rfl, ⟨rfl, rfl, rfl⟩, rfl⟩⟩

/-! ## The cells under a sprite -/

section Sprite

variable {s : State} {x y n : Nibble} {c r : Nat}

/-- Row `sy` of the sprite is the byte at I + sy (R176). -/
theorem State.getElem_spriteRows (s : State) (n : Nibble) {sy : Nat} (h : sy < (s.spriteRows n).length) :
    (s.spriteRows n)[sy] = s.byteAt (s.I.toNat + sy) := by
  have hn : sy < n.toNat := by rwa [s.length_spriteRows] at h
  refine Option.some_inj.1 ((List.getElem?_eq_getElem h).symm.trans ?_)
  exact (s.getElem?_bytesAt n.toNat s.base sy).trans (if_pos hn)

/-- A sprite of at most 15 rows does not reach around the 32 rows of the display (R173). -/
theorem State.length_spriteRows_le (s : State) (n : Nibble) : (s.spriteRows n).length ≤ 32 := by
  have hn := n.isLt
  rw [s.length_spriteRows]
  omega

/-- The rows at I, plotted at (V[x], V[y]), cover the cells whose wrapped coordinates the sprite covers (R171). -/
theorem rowsCover_spriteRows :
    RowsCover (s.v x).toNat (s.v y).toNat (s.spriteRows n) c r ↔ SpriteCovers s x y n (c % 64) (r % 32) := by
  constructor
  · rintro ⟨sy, hsy, sx, hsx, hbit, hcell⟩
    rw [s.getElem_spriteRows] at hbit
    exact ⟨sy, s.length_spriteRows n ▸ hsy, sx, hsx, hbit, hcell⟩
  · rintro ⟨sy, hsy, sx, hsx, hbit, hcell⟩
    have hlen : sy < (s.spriteRows n).length := (s.length_spriteRows n).symm ▸ hsy
    exact ⟨sy, hlen, sx, hsx, (s.getElem_spriteRows n hlen).symm ▸ hbit, hcell⟩

/-- A sprite covers cells of the grid (R171). -/
theorem SpriteCovers.in_grid (h : SpriteCovers s x y n c r) : c < 64 ∧ r < 32 := by
  obtain ⟨sy, -, sx, -, -, rfl, rfl⟩ := h
  exact ⟨Nat.mod_lt _ (by decide), Nat.mod_lt _ (by decide)⟩

/-- `rowsCover_spriteRows` inside the grid. -/
theorem rowsCover_spriteRows_of_lt (hc : c < 64) (hr : r < 32) :
    RowsCover (s.v x).toNat (s.v y).toNat (s.spriteRows n) c r ↔ SpriteCovers s x y n c r := by
  rw [rowsCover_spriteRows, Nat.mod_eq_of_lt hc, Nat.mod_eq_of_lt hr]

/-- The plot of the rows at I collides exactly when the sprite covers a lit cell (R172). -/
theorem snd_drawSprite_spriteRows :
    (drawSprite s.fb (s.v x) (s.v y) (s.spriteRows n)).2 = true ↔
      ∃ c r, SpriteCovers s x y n c r ∧ s.pixel c r = true := by
  rw [snd_drawSprite (s.length_spriteRows_le n)]
  constructor
  · rintro ⟨c, r, hcover, hlit⟩
    exact ⟨c % 64, r % 32, rowsCover_spriteRows.1 hcover, (s.fb.cell_mod c r).trans hlit⟩
  · rintro ⟨c, r, hcover, hlit⟩
    obtain ⟨hc, hr⟩ := hcover.in_grid
    exact ⟨c, r, (rowsCover_spriteRows_of_lt hc hr).2 hcover, hlit⟩

end Sprite

/-! ## DRW -/

section Draw

variable {s t : State} {x y n : Nibble} {c r : Nat}

/-- DRW goes on where its rows lie in memory, and on no rows (R176). -/
theorem exists_exec_draw_eq_next :
    (∃ t, exec (.draw x y n) s = .next t) ↔ n.toNat = 0 ∨ s.I.toNat + n.toNat ≤ memSize :=
  ⟨fun ⟨_, h⟩ => (execDraw_eq_next.1 h).1, fun h => ⟨_, execDraw_eq_next.2 ⟨h, rfl⟩⟩⟩

theorem pixel_of_exec_draw_covered (h : exec (.draw x y n) s = .next t) (hcover : SpriteCovers s x y n c r) :
    t.pixel c r = !s.pixel c r := by
  obtain ⟨hc, hr⟩ := hcover.in_grid
  obtain ⟨-, rfl⟩ := execDraw_eq_next.1 h
  exact cell_drawSprite_covered (s.length_spriteRows_le n) ((rowsCover_spriteRows_of_lt hc hr).2 hcover)

theorem pixel_of_exec_draw_uncovered (h : exec (.draw x y n) s = .next t) (hc : c < 64) (hr : r < 32)
    (hcover : ¬ SpriteCovers s x y n c r) : t.pixel c r = s.pixel c r := by
  obtain ⟨-, rfl⟩ := execDraw_eq_next.1 h
  exact cell_drawSprite_uncovered (s.length_spriteRows_le n) (mt (rowsCover_spriteRows_of_lt hc hr).1 hcover)

theorem v_vf_of_exec_draw (h : exec (.draw x y n) s = .next t) :
    t.v vf = boolToU8 (drawSprite s.fb (s.v x) (s.v y) (s.spriteRows n)).2 := by
  obtain ⟨-, rfl⟩ := execDraw_eq_next.1 h
  exact (State.v_setFlag _ _ vf).trans (if_pos rfl)

theorem v_vf_of_exec_draw_lit (h : exec (.draw x y n) s = .next t)
    (hlit : ∃ c r, SpriteCovers s x y n c r ∧ s.pixel c r = true) : t.v vf = 0x01 := by
  rw [v_vf_of_exec_draw h, snd_drawSprite_spriteRows.2 hlit]
  rfl

theorem v_vf_of_exec_draw_unlit (h : exec (.draw x y n) s = .next t)
    (hunlit : ∀ c r, SpriteCovers s x y n c r → s.pixel c r = false) : t.v vf = 0x00 := by
  have hno : ¬ ∃ c r, SpriteCovers s x y n c r ∧ s.pixel c r = true := by
    rintro ⟨c, r, hcover, hlit⟩
    exact Bool.eq_false_iff.1 (hunlit c r hcover) hlit
  rw [v_vf_of_exec_draw h, Bool.eq_false_iff.2 (mt snd_drawSprite_spriteRows.1 hno)]
  rfl

theorem onlyDisplayAndFlag_of_exec_draw (h : exec (.draw x y n) s = .next t) : OnlyDisplayAndFlag s t := by
  obtain ⟨-, rfl⟩ := execDraw_eq_next.1 h
  exact ⟨rfl, fun q hq => (State.v_setFlag _ _ q).trans (if_neg hq), rfl, rfl, ⟨rfl, rfl⟩, fun _ => rfl,
    ⟨rfl, rfl, rfl⟩, rfl⟩

/-- A draw leaves the sprite where it was unless a coordinate is in VF, which it writes (R176). -/
theorem spriteCovers_of_onlyDisplayAndFlag (h : OnlyDisplayAndFlag s t) (hx : x ≠ vf) (hy : y ≠ vf) :
    SpriteCovers t x y n c r ↔ SpriteCovers s x y n c r := by
  obtain ⟨-, hv, hI, -, -, hmem, -⟩ := h
  simp only [SpriteCovers, SpriteBit, hv x hx, hv y hy, hI, hmem _]

end Draw

/-- Settles O36: the check of DRW decides between the plot and the fault. -/
theorem drawPlotsByXorAndReportsCollision : Obligations.DrawPlotsByXorAndReportsCollision := by
  refine ⟨encodedAs_of_row, fun x y n s => ⟨fun hin => ?_, fun hn hpast => ?_⟩⟩
  · obtain ⟨t, ht⟩ := exists_exec_draw_eq_next.2 (hin.imp_left (congrArg BitVec.toNat))
    exact ⟨t, ht, fun c r _ _ => pixel_of_exec_draw_covered ht, fun c r => pixel_of_exec_draw_uncovered ht,
      v_vf_of_exec_draw_lit ht, v_vf_of_exec_draw_unlit ht, onlyDisplayAndFlag_of_exec_draw ht⟩
  · have hout : ¬ (n.toNat = 0 ∨ s.I.toNat + n.toNat ≤ memSize) :=
      not_or.2 ⟨mt (BitVec.toNat_inj (y := 0x0)).1 hn, hpast.not_ge⟩
    exact exec_eq_fault.2 ((s.readFault?_eq _ _ _).trans (if_neg hout))

/-- Settles O37: both draws cover the same cells, and a cell toggled twice is as it was. -/
theorem drawTwiceRestoresDisplay : Obligations.DrawTwiceRestoresDisplay := by
  intro x y n s t hx hy ht
  have hframe := onlyDisplayAndFlag_of_exec_draw ht
  have hcovers {c r} : SpriteCovers t x y n c r ↔ SpriteCovers s x y n c r :=
    spriteCovers_of_onlyDisplayAndFlag hframe hx hy
  obtain ⟨u, hu⟩ : ∃ u, exec (.draw x y n) t = .next u := by
    obtain ⟨-, -, hI, -⟩ := hframe
    rw [exists_exec_draw_eq_next, hI]
    exact exists_exec_draw_eq_next.1 ⟨t, ht⟩
  refine ⟨u, hu, sameDisplay_of_grid fun c r hc hr => ?_, fun hunlit => ⟨?_, ?_, ?_⟩⟩
  · by_cases hcover : SpriteCovers s x y n c r
    · rw [pixel_of_exec_draw_covered hu (hcovers.2 hcover), pixel_of_exec_draw_covered ht hcover, Bool.not_not]
    · rw [pixel_of_exec_draw_uncovered hu hc hr (mt hcovers.1 hcover), pixel_of_exec_draw_uncovered ht hc hr hcover]
  · exact v_vf_of_exec_draw_unlit ht hunlit
  · rintro ⟨sy, hsy, sx, hsx, hbit⟩
    have hcover : SpriteCovers s x y n _ _ := ⟨sy, hsy, sx, hsx, hbit, rfl, rfl⟩
    refine v_vf_of_exec_draw_lit hu ⟨_, _, hcovers.2 hcover, ?_⟩
    rw [pixel_of_exec_draw_covered ht hcover, hunlit _ _ hcover, Bool.not_false]
  · intro hblank
    refine v_vf_of_exec_draw_unlit hu fun c r hcover => ?_
    obtain ⟨sy, hsy, sx, hsx, hbit, -⟩ := hcovers.1 hcover
    exact absurd hbit (hblank sy hsy sx hsx)

end Sys2Proof.Machine
end

section
/-! PROOFS. Keys and timers (44_keys_timers.md): the key skips and the key wait over the snapshot of a cycle, what the
timer instructions read and store, and the host's calls on the timers. -/

namespace Sys2Proof.Machine

/-! ## The key snapshot -/

theorem State.keyPressed_of_lt (s : State) {k : Byte} (h : k.toNat < 16) :
    s.keyPressed k = s.env.keys[k.toNat] := by
  rw [State.keyPressed, Vector.getElem?_eq_getElem h, Option.getD_some]

/-- The search of Fx0A is the library's, counted from `n` (R195). -/
theorem lowestPressed_eq_findIdx? (n : Nat) (keys : List Bool) :
    lowestPressed n keys = (keys.findIdx? id).map (· + n) := by
  induction keys generalizing n with
  | nil => rfl
  | cons b keys ih =>
    rw [lowestPressed, List.findIdx?_cons]
    cases b with
    | true => simp
    | false => simp [ih, Function.comp_def, Nat.add_assoc, Nat.add_comm 1]

theorem State.firstKey_eq_findIdx? (s : State) : s.firstKey = s.env.keys.toList.findIdx? id := by
  simp [State.firstKey, lowestPressed_eq_findIdx?]

/-- Fx0A finds no key exactly where none is pressed (R195). -/
theorem State.firstKey_eq_none {s : State} : s.firstKey = none ↔ ∀ k (h : k < 16), s.env.keys[k] = false := by
  simp [State.firstKey_eq_findIdx?, List.findIdx?_eq_none_iff, Vector.forall_mem_iff_forall_getElem]

/-- Fx0A finds the pressed key that has none pressed below it (R195). -/
theorem State.firstKey_eq_some {s : State} {k : Nat} :
    s.firstKey = some k ↔ ∃ h : k < 16, s.env.keys[k] = true ∧ ∀ j (hj : j < k), s.env.keys[j] = false := by
  simp [State.firstKey_eq_findIdx?, List.findIdx?_eq_some_iff_getElem]

/-! ## Timers -/

/-- With exact reads a timer reads back what it was set to (R190). -/
theorem timerGet_timerSet (low : Bool) (b : Byte) : timerGet false low (timerSet b) = b := by
  have hfloor : (timerSet b).floor = b.toNat := Int.floor_natCast (R := ℚ) b.toNat
  simp [timerGet, hfloor]

/-- With exact reads a timer in range reads as not 0 from one tick on (R190). -/
theorem timerGet_ne_zero_iff (low : Bool) {acc : Ticks} (h : timerInRange acc) :
    timerGet false low acc ≠ 0x00 ↔ 1 ≤ acc := by
  have hread : ((timerGet false low acc).toNat : Int) = acc.floor := timerGet_toNat false low h
  calc timerGet false low acc ≠ 0x00 ↔ (timerGet false low acc).toNat ≠ 0 := BitVec.toNat_inj.not.symm
    _ ↔ 1 ≤ acc.floor := by omega
    _ ↔ 1 ≤ acc := by simpa using Rat.le_floor_iff (x := 1) (a := acc)

/-- A step that stopped at 0 stays there in the next, so two steps are one by the sum (R190). -/
theorem timerStep_timerStep (a : Rat) {b : Rat} (hb : 0 ≤ b) (acc : Ticks) :
    timerStep b (timerStep a acc) = timerStep (a + b) acc := by
  have hdrop : 0 - 60 * b ≤ 0 := by linarith
  calc max 0 (max 0 (acc - 60 * a) - 60 * b)
      = max (max 0 (0 - 60 * b)) (acc - 60 * a - 60 * b) := by rw [← max_sub_sub_right, max_assoc]
    _ = max 0 (acc - 60 * (a + b)) := by rw [max_eq_left hdrop, sub_sub, mul_add]

theorem State.updateTimers_of_nonneg (s : State) {dt : Rat} (h : 0 ≤ dt) :
    s.updateTimers dt = some { s with delay := timerStep dt s.delay, sound := timerStep dt s.sound } :=
  if_neg h.not_gt

/-! ## The host's calls -/

/-- Settles O42: the guard of the call decides between the steps and the refusal. -/
theorem updateTimersStepsBoth : Obligations.UpdateTimersStepsBoth :=
  fun _ s => ⟨fun hneg => if_pos hneg, s.updateTimers_of_nonneg⟩

/-- Settles O43: each timer stepped twice is stepped once by the sum. -/
theorem updateTimersIsAdditive : Obligations.UpdateTimersIsAdditive := by
  intro a b s ha hb
  rw [s.updateTimers_of_nonneg ha, Option.bind_some, State.updateTimers_of_nonneg _ hb,
    s.updateTimers_of_nonneg (add_nonneg ha hb), timerStep_timerStep a hb, timerStep_timerStep a hb]

/-- Settles O44: the exact read of the sound timer is not 0 from one tick on. -/
theorem soundIsActiveFromOneTick : Obligations.SoundIsActiveFromOneTick := by
  refine fun low s => ⟨rfl, fun hrange hexact => ?_⟩
  rw [State.isSoundActive, hexact, bne_iff_ne]
  exact timerGet_ne_zero_iff low hrange

/-! ## The timer instructions -/

theorem State.onlyTimers_arriveAt (s : State) (delay sound : Ticks) :
    OnlyTimers s (State.arriveAt { s with delay := delay, sound := sound } s.nextPc) :=
  ⟨rfl, fun _ => rfl, rfl, rfl, fun _ _ => rfl, fun _ => rfl, ⟨rfl, rfl, rfl⟩, rfl⟩

/-- Settles O41: both end by setting their timer alone, and the sound timer reads back what it was set to. -/
theorem setTimersStoreWholeTicks : Obligations.SetTimersStoreWholeTicks := by
  refine ⟨encodedAs_of_row, encodedAs_of_row, fun x s => ⟨?_, ?_⟩⟩
  · exact ⟨(s.setDelay (s.v x)).arriveAt s.nextPc, rfl, rfl, rfl, s.onlyTimers_arriveAt _ _⟩
  · refine ⟨(s.setSound (s.v x)).arriveAt s.nextPc, rfl, rfl, rfl, s.onlyTimers_arriveAt _ _, fun hexact low => ?_⟩
    have hread : timerGet s.cfg.timerReadSlack low (timerSet (s.v x)) = s.v x := by
      rw [hexact, timerGet_timerSet]
    exact congrArg (· != 0x00) hread

/-- Settles O39: the read of a timer in range is the only write. -/
theorem getDelayReadsWholeTicks : Obligations.GetDelayReadsWholeTicks := by
  refine ⟨encodedAs_of_row, fun x s hrange => ?_⟩
  obtain ⟨t, ht, hv, hframe⟩ := s.complete_setV x (timerGet s.cfg.timerReadSlack s.env.readLow s.delay)
  refine ⟨t, ht, ?_, fun q hq => (hv q).trans (if_neg hq), hframe⟩
  rw [hv, if_pos rfl]
  exact timerGet_toNat _ _ hrange

/-! ## The key instructions -/

/-- Settles O38: the index check decides between the skip on the key's entry in the snapshot and the fault. -/
theorem keySkipsTestTheSnapshot : Obligations.KeySkipsTestTheSnapshot := by
  refine ⟨encodedAs_of_row, encodedAs_of_row, fun x s => ⟨fun hkey => ?_, fun hnone => ?_⟩⟩
  · have hvalid : keyIndexValid (s.v x) = true := decide_eq_true hkey
    have hentry := s.keyPressed_of_lt hkey
    have hpressed : exec (.skipPressed x) s = s.skipIf (s.keyPressed (s.v x)) := if_pos hvalid
    have hnotPressed : exec (.skipNotPressed x) s = s.skipIf (!s.keyPressed (s.v x)) := if_pos hvalid
    rw [hpressed, hnotPressed, hentry]
    exact ⟨State.skipIf_lands Iff.rfl, State.skipIf_lands (Iff.of_eq (Bool.not_eq_true' _))⟩
  · have hinvalid : ¬ keyIndexValid (s.v x) = true := mt of_decide_eq_true hnone.not_gt
    exact ⟨exec_eq_fault.2 (if_neg hinvalid), exec_eq_fault.2 (if_neg hinvalid)⟩

/-- Settles O40: the search of the snapshot decides between the hold and the write of V[x]. -/
theorem waitKeyTakesLowestKeyOrHolds : Obligations.WaitKeyTakesLowestKeyOrHolds := by
  refine ⟨encodedAs_of_row, fun x s => ⟨fun hnone => ?_, fun k hk hpressed hbelow => ?_⟩⟩
  · exact execWaitKey_eq_next.2 (.inl ⟨State.firstKey_eq_none.2 hnone, rfl⟩)
  · have hfirst : s.firstKey = some k := State.firstKey_eq_some.2 ⟨hk, hpressed, hbelow⟩
    have hv := s.v_setV x (BitVec.ofNat 8 k)
    refine ⟨_, execWaitKey_eq_next.2 (.inr ⟨k, hfirst, rfl⟩), ?_, fun q hq => (hv q).trans (if_neg hq),
      s.onlyRegs_arriveAt _⟩
    calc ((s.setV x (BitVec.ofNat 8 k)).v x).toNat = (BitVec.ofNat 8 k).toNat := by rw [hv, if_pos rfl]
      _ = k := Nat.mod_eq_of_lt (hk.trans (by decide))

end Sys2Proof.Machine
end

section
/-! PROOFS. Index register and memory (45_index_memory.md): what the three index instructions leave in I, what the stores
put in memory, what the block load reads from it, and the checks that come before them. -/

namespace Sys2Proof.Machine

/-! ## The index instructions -/

theorem State.onlyIndex_arriveAt (s : State) (w : Word) : OnlyIndex s ((s.setI w).arriveAt s.nextPc) :=
  ⟨rfl, fun _ => rfl, rfl, ⟨rfl, rfl⟩, fun _ _ => rfl, fun _ => rfl, ⟨rfl, rfl, rfl⟩, rfl⟩

theorem toNat_add_zextByte (w : Word) (b : Byte) : (w + zextByte b).toNat = (w.toNat + b.toNat) % 65536 := by
  rw [BitVec.toNat_add, zextByte_toNat]

/-- Five times a byte is at most 0x4FB, so it does not wrap (R212). -/
theorem State.glyphAddress_toNat (s : State) (x : Nibble) : (s.glyphAddress x).toNat = 5 * (s.v x).toNat := by
  have hv := (s.v x).isLt
  rw [State.glyphAddress, BitVec.toNat_mul, zextByte_toNat, show (5 : Word).toNat = 5 from rfl]
  omega

/-- Settles O46: each instruction ends with its value in I as its one write. -/
theorem indexInstructionsWriteIndex : Obligations.IndexInstructionsWriteIndex := by
  refine ⟨encodedAs_of_row, encodedAs_of_row, encodedAs_of_row, fun nnn s => ?_, fun x s => ?_, fun x s => ?_⟩
  · exact ⟨_, rfl, zextAddr_toNat nnn, s.onlyIndex_arriveAt _⟩
  · exact ⟨_, rfl, toNat_add_zextByte s.I (s.v x), s.onlyIndex_arriveAt _⟩
  · exact ⟨_, rfl, s.glyphAddress_toNat x, s.onlyIndex_arriveAt _⟩

/-! ## The checks of a memory operand -/

/-- A memory operand that ends past the address space faults a read (R56, R234). -/
theorem State.readFault?_of_outOfBounds (s : State) (i : Instr) {base len : Nat} (hlen : len ≠ 0)
    (h : memSize < base + len) :
    s.readFault? i base len = some (.outOfBoundsMemoryAccess s.pc (some (encode i)) (max base memSize)) :=
  (s.readFault?_eq i base len).trans (if_neg (not_or.2 ⟨hlen, h.not_ge⟩))

/-- A memory operand that ends past the address space faults a store, wherever the font stands (R239). -/
theorem State.writeFault?_of_outOfBounds (s : State) (i : Instr) {base len : Nat} (hlen : len ≠ 0)
    (h : memSize < base + len) :
    s.writeFault? i base len = some (.outOfBoundsMemoryAccess s.pc (some (encode i)) (max base memSize)) :=
  (s.writeFault?_eq i base len).trans (if_pos (not_or.2 ⟨hlen, h.not_ge⟩))

/-- Inside the address space, policy `fault` stops a store that begins in the font range (R53, R237). -/
theorem State.writeFault?_of_font (s : State) (i : Instr) {base len : Nat} (h : base + len ≤ memSize)
    (hpolicy : s.cfg.fontWritePolicy = .fault) (hfont : base < fontEnd) :
    s.writeFault? i base len = some (.fontWrite s.pc (encode i) base) :=
  (s.writeFault?_eq i base len).trans ((if_neg (not_not_intro (.inr h))).trans (if_pos ⟨hpolicy, hfont⟩))

/-! ## Stores at I -/

/-- The frame of a store at I that may also move I (R213, R214). -/
theorem State.onlyStores_arriveAt (s : State) (bs : List Byte) (w : Word) (hmem : Memory.wf s.cfg.font s.mem)
    (hbound : s.base + bs.length ≤ memSize) :
    OnlyStores s.base bs.length s (((s.storeBytes s.base bs).setI w).arriveAt s.nextPc) := by
  refine ⟨rfl, fun _ => rfl, rfl, ⟨rfl, rfl⟩, fun _ _ => rfl, fun a hout => ?_, ⟨rfl, rfl, rfl⟩, rfl⟩
  exact (s.byteAt_storeBytes s.base bs a hmem hbound).trans (if_neg (by omega))

/-- The k-th stored byte stands k above the first address of the store (R59). -/
theorem State.byteAt_storeBytes_add (s : State) (a : Nat) (bs : List Byte) (hmem : Memory.wf s.cfg.font s.mem)
    (hbound : a + bs.length ≤ memSize) {k : Nat} (hk : k < bs.length) :
    (s.storeBytes a bs).byteAt (a + k) = bs[k] := by
  rw [s.byteAt_storeBytes a bs _ hmem hbound, if_pos (by omega), Nat.add_sub_cancel_left, List.getElem?_eq_getElem hk,
    Option.getD_some]

/-- Settles O47: the check decides between the two faults and the store of the three digits. -/
theorem storeBcdWritesDecimalDigits : Obligations.StoreBcdWritesDecimalDigits := by
  refine ⟨encodedAs_of_row, fun x s hmem => ⟨fun hpast => ?_, fun hin hpolicy hfont => ?_, fun hin hallowed => ?_⟩⟩
  · exact exec_eq_fault.2 (s.writeFault?_of_outOfBounds _ (by decide) (Nat.succ_lt_succ hpast))
  · exact exec_eq_fault.2 (s.writeFault?_of_font _ (Nat.succ_le_succ hin) hpolicy (Nat.lt_succ_of_le hfont))
  · have hbound : s.base + (bcdDigits (s.v x)).length ≤ memSize := Nat.succ_le_succ hin
    have hdigit {k : Nat} (hk : k < 3) :=
      s.byteAt_storeBytes_add s.base (bcdDigits (s.v x)) hmem hbound (k := k) hk
    refine ⟨_, execStoreBCD_eq_next.2 ⟨(State.writeFault?_eq_none (by decide)).2 ⟨hbound, hallowed⟩, rfl⟩,
      ?_, ?_, ?_, rfl, s.onlyStores_arriveAt _ s.I hmem hbound⟩
    · exact congrArg BitVec.toNat (hdigit (k := 0) (by decide))
    · exact congrArg BitVec.toNat (hdigit (k := 1) (by decide))
    · exact congrArg BitVec.toNat (hdigit (k := 2) (by decide))

/-! ## Register blocks -/

theorem blockLength_ne_zero (x : Nibble) : blockLength x ≠ 0 := Nat.succ_ne_zero _

/-- I after a block, as a number (R214, R215). -/
theorem State.indexAfterBlock_toNat (s : State) (x : Nibble) :
    (s.indexAfterBlock x).toNat =
      if s.cfg.regblockIncI then (s.I.toNat + x.toNat + 1) % 65536 else s.I.toNat := by
  rw [State.indexAfterBlock, apply_ite BitVec.toNat, BitVec.toNat_add, BitVec.toNat_ofNat, Nat.add_mod_mod]
  rfl

/-- Settles O48: the check decides between the two faults and the store of the block. -/
theorem storeRegisterBlockWritesRegisters : Obligations.StoreRegisterBlockWritesRegisters := by
  refine ⟨encodedAs_of_row, fun x s hmem => ⟨fun hpast => ?_, fun hin hpolicy hfont => ?_, fun hin hallowed => ?_⟩⟩
  · exact exec_eq_fault.2 (s.writeFault?_of_outOfBounds _ (blockLength_ne_zero x) (Nat.succ_lt_succ hpast))
  · exact exec_eq_fault.2 (s.writeFault?_of_font _ (Nat.succ_le_succ hin) hpolicy (Nat.lt_succ_of_le hfont))
  · have hbound : s.base + blockLength x ≤ memSize := Nat.succ_le_succ hin
    have hexec := execStoreRegisterBlock_eq_next.2
      ⟨(State.writeFault?_eq_none (blockLength_ne_zero x)).2 ⟨hbound, hallowed⟩, rfl⟩
    have hframe := s.onlyStores_arriveAt (s.registerBlock x) (s.indexAfterBlock x) hmem
    rw [State.length_registerBlock] at hframe
    exact ⟨_, hexec, fun k => byteAt_of_execStoreRegisterBlock hexec hmem, s.indexAfterBlock_toNat x, hframe hbound⟩

/-- A block load that goes on leaves the byte at I + q in V[q] for every q up to x and every other register as it was
(R215). -/
theorem v_of_execLoadRegisterBlock {x : Nibble} {s t : State} (h : execLoadRegisterBlock x s = .next t) (q : Nibble) :
    t.v q = if q ≤ x then s.byteAt (s.base + q.toNat) else s.v q := by
  obtain ⟨-, rfl⟩ := execLoadRegisterBlock_eq_next.1 h
  exact s.v_loadMemoryBlock x q

/-- Settles O49: the check decides between the fault and the load of the block. -/
theorem loadRegisterBlockReadsMemory : Obligations.LoadRegisterBlockReadsMemory := by
  refine ⟨encodedAs_of_row, fun x s => ⟨fun hpast => ?_, fun hin => ?_⟩⟩
  · exact exec_eq_fault.2 (s.readFault?_of_outOfBounds _ (blockLength_ne_zero x) (Nat.succ_lt_succ hpast))
  · have hexec := execLoadRegisterBlock_eq_next.2 ⟨Nat.succ_le_succ hin, rfl⟩
    have hv := v_of_execLoadRegisterBlock hexec
    exact ⟨_, hexec, fun k hk => (hv k).trans (if_pos hk), fun k hk => (hv k).trans (if_neg (BitVec.not_le.2 hk)),
      s.indexAfterBlock_toNat x, rfl, rfl, ⟨rfl, rfl⟩, fun _ _ => rfl, fun _ => rfl, ⟨rfl, rfl, rfl⟩, rfl⟩

/-- Settles O50: the load reads the very bytes the store wrote, in bounds as the store was. -/
theorem blockLoadUndoesBlockStore : Obligations.BlockLoadUndoesBlockStore := by
  intro x s t regs hmem hstore
  have hbound : s.base + blockLength x ≤ memSize := execStoreRegisterBlock_inBounds hstore
  have hload := (execLoadRegisterBlock_eq_next (s := { t with I := s.I, regs := regs })).2 ⟨hbound, rfl⟩
  refine ⟨_, hload, fun k hk => ?_⟩
  calc _ = t.byteAt (s.base + k.toNat) := (v_of_execLoadRegisterBlock hload k).trans (if_pos hk)
    _ = s.v k := byteAt_of_execStoreRegisterBlock hstore hmem hk

end Sys2Proof.Machine
end

section
/-! PROOFS. The faults an instruction raises once decoded (60_exceptions.md R230, R238): every check gives a fault of a
listed kind, and its record names pc and the word of the instruction. -/

namespace Sys2Proof.Machine

variable {s : State} {i : Instr} {base len : Nat} {f : Fault}

/-- R230 lists the kind of the fault for the instruction, and the record holds pc and the instruction's word (log
entry 7). -/
def Fault.ListedFor (s : State) (i : Instr) (f : Fault) : Prop :=
  f.code ∈ faultCodes i ∧ f.recordedPc = s.pc ∧ f.recordedWord = some (encode i)

/-- The check of a data read gives `OutOfBoundsMemoryAccess` only (R234). -/
theorem State.listedFor_of_readFault? (hbounds : 4 ∈ faultCodes i) (h : s.readFault? i base len = some f) :
    f.ListedFor s i := by
  rw [State.readFault?_eq] at h
  obtain ⟨-, ⟨⟩⟩ := Option.ite_none_left_eq_some.1 h
  exact ⟨hbounds, rfl, rfl⟩

/-- The check of a store gives `OutOfBoundsMemoryAccess` or `FontWrite` (R234, R237). -/
theorem State.listedFor_of_writeFault? (hbounds : 4 ∈ faultCodes i) (hfont : 7 ∈ faultCodes i)
    (h : s.writeFault? i base len = some f) : f.ListedFor s i := by
  rw [State.writeFault?_eq] at h
  split at h
  · obtain ⟨⟩ := h
    exact ⟨hbounds, rfl, rfl⟩
  · obtain ⟨-, ⟨⟩⟩ := Option.ite_none_right_eq_some.1 h
    exact ⟨hfont, rfl, rfl⟩

/-- The nine instructions with a check, grouped by the check they make; no other faults. -/
theorem State.listedFor_of_faultOf? (h : s.faultOf? i = some f) : f.ListedFor s i := by
  cases i
  case sys =>
    obtain ⟨⟩ := h
    exact ⟨List.mem_singleton_self 5, rfl, rfl⟩
  case ret | call =>
    obtain ⟨-, ⟨⟩⟩ := Option.ite_none_right_eq_some.1 h
    exact ⟨List.mem_singleton_self _, rfl, rfl⟩
  case skipPressed | skipNotPressed =>
    obtain ⟨-, ⟨⟩⟩ := Option.ite_none_left_eq_some.1 h
    exact ⟨List.mem_singleton_self 6, rfl, rfl⟩
  case draw | loadRegisterBlock => exact State.listedFor_of_readFault? (List.mem_singleton_self 4) h
  case storeBCD | storeRegisterBlock =>
    exact State.listedFor_of_writeFault? List.mem_cons_self (List.mem_cons_of_mem 4 (List.mem_singleton_self 7)) h
  all_goals exact nomatch h

/-- Settles O11: an instruction faults with what its check gives. -/
theorem faultsAreOfTheListedKinds : Obligations.FaultsAreOfTheListedKinds :=
  fun _ _ _ h => State.listedFor_of_faultOf? (exec_eq_fault.1 h)

end Sys2Proof.Machine
end

section
/-! PROOFS. Construction (10_state.md R38, 70_reset_and_hazards.md R260 to R262): what `construct_empty` leaves, what
loading a ROM adds to it, and that the invariants of a run hold after both. -/

namespace Sys2Proof.Machine

/-! ## The empty block (R260) -/

theorem unlisted_of_lt_fontEnd {font : Font} {a : Nat} (h : a < fontEnd) : unlisted font a = font[a]'h := dif_pos h

theorem unlisted_of_fontEnd_le {font : Font} {a : Nat} (h : fontEnd ≤ a) : unlisted font a = 0x00 := dif_neg h.not_gt

@[simp] theorem State.constructEmpty_byteAt (cfg : Config) (a : Nat) :
    (State.constructEmpty cfg).byteAt a = unlisted cfg.font a := rfl

@[simp] theorem State.constructEmpty_v (cfg : Config) (r : Nibble) : (State.constructEmpty cfg).v r = 0x00 :=
  Vector.getElem_replicate r.isLt

/-- Construction leaves the display as CLS does. -/
@[simp] theorem State.constructEmpty_pixel (cfg : Config) (c r : Nat) : (State.constructEmpty cfg).pixel c r = false :=
  Framebuffer.cell_clearedFb c r

theorem State.constructEmpty_fontIntact (cfg : Config) : FontIntact (State.constructEmpty cfg) :=
  fun a ha => (State.constructEmpty_byteAt cfg a).trans (unlisted_of_lt_fontEnd ha)

/-- A timer that construction leaves at 0 is in range. -/
theorem timerInRange_zero : timerInRange 0 := ⟨by decide, by decide⟩

theorem State.constructEmpty_stateInv (cfg : Config) : StateInv (State.constructEmpty cfg) :=
  ⟨Memory.wf_nil cfg.font, Nat.zero_le stackDepth, timerInRange_zero, timerInRange_zero⟩

theorem State.constructEmpty_pcInv (cfg : Config) : PcInv (State.constructEmpty cfg) :=
  ⟨(by decide : (0x0200 : Word).toNat ≤ 0x10FE), List.forall_mem_nil _⟩

/-- Settles O19: the registers and cells are replicated zeros, and every byte is unlisted. -/
theorem constructEmptyState : Obligations.ConstructEmptyState := fun cfg =>
  ⟨rfl, State.constructEmpty_v cfg, rfl, rfl, rfl, rfl, State.constructEmpty_pixel cfg,
    State.constructEmpty_fontIntact cfg,
    fun a habove _ => (State.constructEmpty_byteAt cfg a).trans (unlisted_of_fontEnd_le habove)⟩

/-! ## A store of bytes and the invariants -/

theorem State.storeBytes_keeps_stateInv (s : State) (a : Nat) (bs : List Byte) (hs : StateInv s)
    (hbound : a + bs.length ≤ memSize) : StateInv (s.storeBytes a bs) :=
  ⟨Memory.wf_writeBytes _ bs _ a hs.mem hbound, hs.stack, hs.delay, hs.sound⟩

/-- A store above the font range leaves the font intact (R53). -/
theorem State.storeBytes_keeps_fontIntact (s : State) (a : Nat) (bs : List Byte) (hmem : Memory.wf s.cfg.font s.mem)
    (hbound : a + bs.length ≤ memSize) (habove : fontEnd ≤ a) (hs : FontIntact s) : FontIntact (s.storeBytes a bs) := by
  intro b hb
  have hout : ¬ (a ≤ b ∧ b < a + bs.length) := by omega
  calc (s.storeBytes a bs).byteAt b
    _ = s.byteAt b := (s.byteAt_storeBytes a bs b hmem hbound).trans (if_neg hout)
    _ = s.cfg.font[b] := hs b hb

/-! ## Loading a ROM (R261, R262) -/

/-- Settles O16: construction meets the invariants, and a loaded ROM is a store above the font, which keeps them. -/
theorem constructionMeetsInvariants : Obligations.ConstructionMeetsInvariants := by
  intro cfg
  have hinv := State.constructEmpty_stateInv cfg
  have hpc := State.constructEmpty_pcInv cfg
  have hfont := State.constructEmpty_fontIntact cfg
  refine ⟨⟨hinv, hpc, hfont⟩, fun rom s hrom => ?_⟩
  obtain ⟨hfits, rfl⟩ := State.constructWithRom_eq_some.1 hrom
  have hbound : programStart + rom.length ≤ memSize := Nat.add_le_of_le_sub' (by decide) hfits
  exact ⟨State.storeBytes_keeps_stateInv _ _ rom hinv hbound, ⟨hpc.pc, hpc.stack⟩,
    State.storeBytes_keeps_fontIntact _ _ rom hinv.mem hbound (by decide) hfont⟩

/-- Settles O20: a ROM that fits is stored from 0x200 upward, which changes those bytes only. -/
theorem romIsLoadedVerbatim : Obligations.RomIsLoadedVerbatim := by
  refine fun cfg rom => ⟨fun hfits => ?_, fun hlong => ?_⟩
  · have hmem := (State.constructEmpty_stateInv cfg).mem
    have hbound : programStart + rom.length ≤ memSize := Nat.add_le_of_le_sub' (by decide) hfits
    refine ⟨_, State.constructWithRom_eq_some.2 ⟨hfits, rfl⟩, fun k hk => ?_, fun a hout => ?_, rfl⟩
    · exact State.byteAt_storeBytes_add _ programStart rom hmem hbound hk
    · have hnot : ¬ (programStart ≤ a ∧ a < programStart + rom.length) :=
        fun ⟨hlow, hhigh⟩ => hout.elim hlow.not_gt hhigh.not_ge
      exact (State.byteAt_storeBytes _ programStart rom a hmem hbound).trans (if_neg hnot)
  · exact if_neg hlong.not_ge

end Sys2Proof.Machine
end
